-- ==== Sys2Proof/Word.lean ====
section
/-! DEFINITION. The word types of the block and its fixed sizes (R2, R6, R11). -/

namespace Sys2Proof

/-- One time slot of the Timeline: 32 bits (R2, R95). -/
abbrev PulseWord := BitVec 32

/-- What one emission puts on the sixteen lines (R2, R96). -/
abbrev HalfWord := BitVec 16

/-- A channel id, 0 to 7 (R2). -/
abbrev Channel := Fin 8

/-- A text as a sequence of characters, each a code point (R92). -/
abbrev Text := List Char

/-- `NCH_MAX` of R6: the largest number of channels. -/
def nchMax : Nat := 8

end Sys2Proof
end

