-- ==== Sys2Proof/Syntax.lean ====
section
/-! DEFINITION. The instructions of spec/opcode_table.json, their operands, and the packets that carry them. -/

namespace Sys2Proof

/-- A parsed motion instruction (R26, R94). `action` true is MOVE, false is HOLD. -/
structure MotionRequest where
  action : Bool
  steps : Nat
  direction : Bool
  speedFactor : Nat
  deriving DecidableEq, Repr

/-- `MODE`, the replay mode flag (R25). -/
inductive ReplayMode where
  | single | loop
  deriving DecidableEq, Repr

/-- The mode as a plan gives it: one of the two values or something else (R97). DESIGN CHOICE: which of the two it is, the
constructor says; the text under `other` is not looked at, so that `other` with the text "single" or "loop" is
something else (log entry 21). -/
inductive PlanMode where
  | known (mode : ReplayMode)
  | other (given : Text)
  deriving DecidableEq, Repr

/-- Format PLAN (R97): channel ids, as naturals, with their lists of texts, and the mode.
The list stands for a mapping: its order says nothing, and a well-formed plan names an id once. -/
structure Plan where
  channels : List (Nat × List Text)
  mode : PlanMode
  deriving DecidableEq, Repr

/-- Where a motion instruction stands in the plan input: the channel whose list holds it, and its
position there (R32). The text of an instruction names neither (R127). -/
structure Site where
  channel : Channel
  index : Nat
  deriving DecidableEq, Repr

/-- One constructor per row of spec/opcode_table.json. -/
inductive Instr where
  /-- MOVE `a1_s<N>_d<D>_v<K>` (R155), at its place in the plan. -/
  | move (site : Site) (steps : Nat) (direction : Bool) (speedFactor : Nat)
  /-- HOLD `a0_s<N>_d<D>_v<K>` (R156), at its place in the plan. -/
  | hold (site : Site) (steps : Nat) (direction : Bool) (speedFactor : Nat)
  /-- RESET (R260). -/
  | reset
  /-- COMPILE (R150). -/
  | compile (plan : Plan)
  /-- PARSE (R120). -/
  | parse (text : Text)
  /-- PULSE_FOR (R140). -/
  | pulseFor (channel : Channel) (direction action : Bool)
  /-- MERGE_CHANNEL (R153). -/
  | mergeChannel (channel : Channel) (requests : List MotionRequest)
  /-- START (R183). -/
  | start
  /-- STOP (R184). -/
  | stop
  /-- REPLAY_ONCE (R185). -/
  | replayOnce
  /-- REPLAY_LOOP (R186). -/
  | replayLoop
  /-- REPLAY (R188). -/
  | replay
  /-- P_ENQUEUE (R189). -/
  | pEnqueue
  /-- C_EMIT_A (R192). -/
  | cEmitA
  /-- C_EMIT_B (R193). -/
  | cEmitB
  deriving DecidableEq, Repr

/-- The command set of R104, "constructors of a command type": commands have no bit encoding.
A channel is still a bare number here; decoding checks it. -/
inductive Command where
  | reset
  | compile (plan : Plan)
  | parse (text : Text)
  | pulseFor (channel : Nat) (direction action : Bool)
  | mergeChannel (channel : Nat) (requests : List MotionRequest)
  | start | stop | replayOnce | replayLoop | replay
  | pEnqueue | cEmitA | cEmitB
  deriving DecidableEq, Repr

/-- The Host's moves on the block, all of them (R203, R227) but the read of the status, which changes nothing. -/
inductive HostCommand where
  | reset
  | compile (plan : Plan)
  | start | stop | replayOnce | replayLoop | replay
  deriving DecidableEq, Repr

/-- One transaction as the block receives it: a text of format T at its address in the plan input (R32),
or a command. -/
inductive Packet where
  | motion (channel index : Nat) (text : Text)
  | command (c : Command)
  deriving DecidableEq, Repr

end Sys2Proof
end

