-- ==== Sys2Proof/Config.lean ====
section
/-! DEFINITION. What the target fixes (R6, R7, R98) and the one free choice of the model: the schedule (R9). -/

namespace Sys2Proof

/-- The configuration of R6. No step writes it (R7, R261). A state carries one, so that a statement about
every state is a statement about every value of these parameters (log entry 3). -/
structure Config where
  /-- `QUEUE_DEPTH`, at least 1 (`Config.wellFormed`). -/
  queueDepth : Nat
  /-- `INTER_PHASE_DELAY_TICKS`, at least 1. No step reads it (R8, R197). -/
  interPhaseDelayTicks : Nat
  /-- `CLOCK_RATE`. No rule reads it (R97). -/
  clockRate : Nat
  /-- `TIMELINE_CAPACITY` in slots; `none` is infinity, the default. -/
  timelineCapacity : Option Nat
  deriving DecidableEq, Repr

/-- The three agents that take steps (R9), as a schedule names them. The Host moves by issuing commands of its own
(R203), any number of them; with none it waits. -/
inductive Agent where
  | host (issues : List HostCommand)
  | producer
  | consumer
  deriving DecidableEq, Repr, Inhabited

/-- `QUEUE_DEPTH` less 1: left to the target (R6, D3), so without a value here. -/
opaque Config.queueDepthLess1 : Nat

/-- `INTER_PHASE_DELAY_TICKS` less 1: left to the target (R6, D4). -/
opaque Config.interPhaseDelayLess1 : Nat

/-- `CLOCK_RATE`: left to the target (R6, D4). -/
opaque Config.openClockRate : Nat

/-- FREE VALUE. Which agent moves when no transaction stands in the script, and what the Host then issues: the order of
the agents is free (R9, V10), and nothing is assumed of the Host (R200). Applied to the count of the choices made so
far (log entries 2 and 20). -/
opaque Config.schedule : Nat → Agent

/-- The configuration a block is built with: the open parameters, and the default capacity of R6. -/
def Config.implementation : Config where
  queueDepth := Config.queueDepthLess1 + 1
  interPhaseDelayTicks := Config.interPhaseDelayLess1 + 1
  clockRate := Config.openClockRate
  timelineCapacity := none

end Sys2Proof
end

