-- ==== Sys2Proof/WellFormed.lean ====
section
/-! DEFINITION. What the spec asks of an operand before the block meets it. -/

namespace Sys2Proof

/-- "The mapping has each id at most once" (R97). -/
def Plan.wellFormed (p : Plan) : Bool :=
  decide (p.channels.map Prod.fst).Nodup

/-- An instruction is well-formed when its plan, if it has one, is a mapping. Channels are 0 to 7 by type. -/
def Instr.wellFormed : Instr → Bool
  | .move _ _ _ _ => true
  | .hold _ _ _ _ => true
  | .reset => true
  | .compile plan => plan.wellFormed
  | .parse _ => true
  | .pulseFor _ _ _ => true
  | .mergeChannel _ _ => true
  | .start => true
  | .stop => true
  | .replayOnce => true
  | .replayLoop => true
  | .replay => true
  | .pEnqueue => true
  | .cEmitA => true
  | .cEmitB => true

/-- `QUEUE_DEPTH` and `INTER_PHASE_DELAY_TICKS` are integers of at least 1 (R6). -/
def Config.wellFormed (c : Config) : Bool :=
  decide (1 ≤ c.queueDepth) && decide (1 ≤ c.interPhaseDelayTicks)

end Sys2Proof
end

