-- ==== Sys2Proof/Decode.lean ====
section
/-! DEFINITION. Format T read and written (R91 to R94, R103, R120), and packets decoded to instructions. -/

namespace Sys2Proof

/-! ## The parser -/

/-- The digits are 0x30 to 0x39 and no others (R92). -/
def isDigit (c : Char) : Bool :=
  decide (0x30 ≤ c.toNat) && decide (c.toNat ≤ 0x39)

/-- The value of one digit character (R93). -/
def digitValue (c : Char) : Nat :=
  c.toNat - 0x30

/-- The value of a run of digits: decimal, most significant digit first (R93). -/
def decimal (run : Text) : Nat :=
  run.foldl (fun value c => 10 * value + digitValue c) 0

/-- What is left of a text after a literal marker; `none` where the marker does not stand (R91). -/
def dropMarker : Text → Text → Option Text
  | [], text => some text
  | m :: marker, c :: text => if m = c then dropMarker marker text else none
  | _ :: _, [] => none

/-- A one-character field, `0` or `1`, and what is left (R91). -/
def takeBit : Text → Option (Bool × Text)
  | '0' :: text => some (false, text)
  | '1' :: text => some (true, text)
  | _ => none

/-- A field of one or more digits, its value, and what is left (R91, R93). -/
def takeDigits (text : Text) : Option (Nat × Text) :=
  if text.takeWhile isDigit = [] then none
  else some (decimal (text.takeWhile isDigit), text.dropWhile isDigit)

/-- PARSE as a function of the text (R120): a request, or `none` for any deviation from the grammar (R100, R122).
The whole text must match (R92). -/
def parse (text : Text) : Option MotionRequest := do
  let afterA ← dropMarker ['a'] text
  let (action, afterAction) ← takeBit afterA
  let afterS ← dropMarker ['_', 's'] afterAction
  let (steps, afterSteps) ← takeDigits afterS
  let afterD ← dropMarker ['_', 'd'] afterSteps
  let (direction, afterDirection) ← takeBit afterD
  let afterV ← dropMarker ['_', 'v'] afterDirection
  let (speedFactor, rest) ← takeDigits afterV
  if rest = [] then some ⟨action, steps, direction, speedFactor⟩ else none

/-! ## Packets to instructions -/

/-- Why a packet is no instruction. -/
inductive DecodeError where
  /-- The text deviates from the grammar (R100); it stands at this place of the plan. -/
  | grammar (site : Site) (text : Text)
  /-- The packet names a channel above 7 (R223 b). -/
  | channelAboveSeven (channel : Nat)
  /-- The plan names an id twice, so it is no mapping (R97). -/
  | notAMapping
  deriving DecidableEq, Repr

/-- A channel id of 0 to 7, or its rejection. -/
def decodeChannel (n : Nat) : Except DecodeError Channel :=
  if h : n < 8 then .ok ⟨n, h⟩ else .error (.channelAboveSeven n)

/-- The opcode of a motion instruction is its `a` field (R99). -/
def motionInstr (site : Site) (m : MotionRequest) : Instr :=
  if m.action then .move site m.steps m.direction m.speedFactor
  else .hold site m.steps m.direction m.speedFactor

/-- A motion text at its place in the plan. -/
def decodeMotion (channel index : Nat) (text : Text) : Except DecodeError Instr :=
  match decodeChannel channel with
  | .error e => .error e
  | .ok c =>
    match parse text with
    | some m => .ok (motionInstr ⟨c, index⟩ m)
    | none => .error (.grammar ⟨c, index⟩ text)

/-- A command of R104. -/
def decodeCommand : Command → Except DecodeError Instr
  | .reset => .ok .reset
  | .compile plan => if plan.wellFormed then .ok (.compile plan) else .error .notAMapping
  | .parse text => .ok (.parse text)
  | .pulseFor channel direction action =>
    (decodeChannel channel).map fun c => .pulseFor c direction action
  | .mergeChannel channel requests =>
    (decodeChannel channel).map fun c => .mergeChannel c requests
  | .start => .ok .start
  | .stop => .ok .stop
  | .replayOnce => .ok .replayOnce
  | .replayLoop => .ok .replayLoop
  | .replay => .ok .replay
  | .pEnqueue => .ok .pEnqueue
  | .cEmitA => .ok .cEmitA
  | .cEmitB => .ok .cEmitB

/-- The decoder: total on packets, rejecting by name. -/
def decode : Packet → Except DecodeError Instr
  | .motion channel index text => decodeMotion channel index text
  | .command c => decodeCommand c

/-! ## The serialiser and the encoder -/

/-- `bit(b)` of R103. -/
def bitChar (b : Bool) : Char :=
  if b then '1' else '0'

/-- The character of a digit below 10. -/
def digitChar (d : Nat) : Char :=
  Char.ofNat (0x30 + d)

/-- The digits of `n`, least significant first; the first argument bounds their number. -/
def decReversed : Nat → Nat → Text
  | 0, _ => []
  | fuel + 1, n =>
    digitChar (n % 10) :: (if n / 10 = 0 then [] else decReversed fuel (n / 10))

/-- `dec(n)` of R103: the shortest decimal numeral of `n`. A number has no more decimal digits than bits. -/
def dec (n : Nat) : Text :=
  (decReversed (n.log2 + 1) n).reverse

/-- The canonical text of a request (R103). -/
def serialise (m : MotionRequest) : Text :=
  'a' :: bitChar m.action :: '_' :: 's' :: (dec m.steps ++
    ('_' :: 'd' :: bitChar m.direction :: '_' :: 'v' :: dec m.speedFactor))

/-- The encoder: the canonical text of a motion instruction, the command of every other row. -/
def encode : Instr → Packet
  | .move site n d k => .motion site.channel site.index (serialise ⟨true, n, d, k⟩)
  | .hold site n d k => .motion site.channel site.index (serialise ⟨false, n, d, k⟩)
  | .reset => .command .reset
  | .compile plan => .command (.compile plan)
  | .parse text => .command (.parse text)
  | .pulseFor c d a => .command (.pulseFor c d a)
  | .mergeChannel c requests => .command (.mergeChannel c requests)
  | .start => .command .start
  | .stop => .command .stop
  | .replayOnce => .command .replayOnce
  | .replayLoop => .command .replayLoop
  | .replay => .command .replay
  | .pEnqueue => .command .pEnqueue
  | .cEmitA => .command .cEmitA
  | .cEmitB => .command .cEmitB

/-! ## A text given as a number -/

/-- The characters whose bytes make up `w`, the first in the lowest byte (log entry 12). -/
def wordText (nbits w : Nat) : Text :=
  (List.range (nbits / 8)).map fun i => Char.ofNat (w / 2 ^ (8 * i) % 256)

/-- A word as a packet: a motion text at channel 0, index 0. Only format T has an encoding (R104), and
the text does not hold its place in the plan (R127). -/
def wordPacket (nbits w : Nat) : Packet :=
  .motion 0 0 (wordText nbits w)

/-- The instruction the decoder reads from the bytes of `w`. -/
def decodeTableWord (nbits w : Nat) : Option Instr :=
  match decode (wordPacket nbits w) with
  | .ok i => some i
  | .error _ => none

end Sys2Proof
end

