-- ==== Sys2Proof/Machine/State.lean ====
section
/-! DEFINITION. The state of the block (R20), the reasons a step can stop, and the state after reset (R35). -/

namespace Sys2Proof.Machine

/-- `CST`, the compiler state (R25). -/
inductive CompilerState where
  | unbuilt | building | frozen
  deriving DecidableEq, Repr

/-- `EST`, the engine state (R25, R182). -/
inductive EngineState where
  | idle | active
  deriving DecidableEq, Repr

/-- The kind of a replay (R30). -/
inductive ReplayKind where
  | once | loop
  deriving DecidableEq, Repr

/-- `RST`, the Producer's replay state; `ridx` is the slot to be enqueued next (R23, R30). -/
inductive ReplayState where
  | notReplaying
  | replaying (kind : ReplayKind) (ridx : Nat)
  deriving DecidableEq, Repr

/-- The values of the `FAULT` register (R25). -/
inductive FaultCode where
  | noFault | grammarError | channelOverflowError | configError | capacityError
  deriving DecidableEq, Repr

/-- `FAULT_INFO`: what the diagnostic names (R25). -/
structure FaultInfo where
  channel : Option Nat
  index : Option Nat
  text : Option Text
  deriving DecidableEq, Repr

/-- The value of `FAULT_INFO` with all fields none. -/
def FaultInfo.empty : FaultInfo := ⟨none, none, none⟩

/-- The model's own: what the last PARSE or PULSE_FOR transaction returned to its caller (log entry 4). -/
inductive Returned where
  | nothing
  | request (m : MotionRequest)
  | parseFailed (text : Text)
  | pulse (w : PulseWord)
  deriving DecidableEq, Repr

/-- The state. The first fields are the whole tuple of R20; the last four are the model's own. -/
structure State where
  /-- `TL`, the Timeline, by slot index (R21). -/
  tl : List PulseWord
  /-- `CUR[0..7]`, the write cursors (R22). -/
  cur : Vector Nat 8
  /-- `CST` (R25). -/
  cst : CompilerState
  /-- `MODE` (R25). -/
  mode : ReplayMode
  /-- `CHANNEL_COUNT` (R25). -/
  channelCount : Nat
  /-- `EST` (R25). -/
  est : EngineState
  /-- `FAULT` (R25). -/
  fault : FaultCode
  /-- `FAULT_INFO` (R25). -/
  faultInfo : FaultInfo
  /-- `SAFE_SHUTDOWN` (R25, R232). -/
  safeShutdown : Bool
  /-- `EXIT_STATUS` (R25, R232). -/
  exitStatus : Nat
  /-- `Q`, head first (R27). -/
  q : List PulseWord
  /-- `PB`, phase B of the word in flight (R28). -/
  pb : Option HalfWord
  /-- `PORT`, the sixteen lines (R29). -/
  port : HalfWord
  /-- `RST` with `RIDX` (R23, R30). -/
  rst : ReplayState
  /-- `TRACE`, ghost, oldest emission first (R31). -/
  trace : List HalfWord
  /-- `ENQN`, ghost (R31). -/
  enqn : Nat
  /-- The model's own: the configuration, which no step writes (R7, log entry 3). -/
  cfg : Config
  /-- The model's own: the transactions still to be taken, in their order (R9, log entry 1). -/
  inbox : List Packet
  /-- The model's own: how many choices of `Config.schedule` have been used (log entry 2). -/
  turn : Nat
  /-- The model's own: the last value returned by PARSE or PULSE_FOR (log entry 4). -/
  ret : Returned
  deriving DecidableEq, Repr

/-- Why the machine stops with a fault: no reason, for the spec names none. Taking a fatal error of the block (R220) is
a next state (R229). -/
inductive Fault where
  deriving DecidableEq, Repr

/-- Why a step has no meaning. -/
inductive Refusal where
  /-- An instruction without a meaning in this model. No arm of `exec` answers it. Safe. -/
  | notModelled (mnemonic : String)
  /-- Raised by `step` on a COMPILE whose plan names an id twice: it is not in format PLAN (R97), and what
  is not is outside the spec (U6). Safe: the model stops. -/
  | notAMapping
  deriving DecidableEq, Repr

/-- The machine right after reset (R35, R260). The script is empty: the block waits for a COMPILE. -/
def State.reset : State where
  tl := []
  cur := Vector.replicate 8 0
  cst := .unbuilt
  mode := .single
  channelCount := 0
  est := .idle
  fault := .noFault
  faultInfo := .empty
  safeShutdown := false
  exitStatus := 0
  q := []
  pb := none
  port := 0x0000#16
  rst := .notReplaying
  trace := []
  enqn := 0
  cfg := .implementation
  inbox := []
  turn := 0
  ret := .nothing

end Sys2Proof.Machine
end

