-- ==== Sys2Proof/Machine/Flags.lean ====
section
/-! DEFINITION. The flags of R24, the codes of R226, and the conditions under which agents and commands act. -/

namespace Sys2Proof.Machine

/-- `Q_FULL` (R24). -/
def qFull (s : State) : Bool :=
  decide (s.q.length = s.cfg.queueDepth)

/-- `Q_EMPTY` (R24). -/
def qEmpty (s : State) : Bool :=
  decide (s.q.length = 0)

/-- `FROZEN` (R24). -/
def isFrozen (s : State) : Bool :=
  decide (s.cst = .frozen)

/-- `FAULTED` (R24). -/
def faulted (s : State) : Bool :=
  decide (s.fault ≠ .noFault)

/-- `REPLAY_BUSY` (R24). -/
def replayBusy (s : State) : Bool :=
  decide (s.rst ≠ .notReplaying)

/-- A COMPILE is running (R25). The operations inside it act only then (R104, D33). -/
def insideCompile (s : State) : Bool :=
  decide (s.cst = .building)

/-- COMPILE is refused in a faulted block and during a replay (R151). -/
def compileAccepted (s : State) : Bool :=
  !faulted s && !replayBusy s

/-- The preconditions of the replay commands (R187). -/
def replayAccepted (s : State) : Bool :=
  !faulted s && isFrozen s && !replayBusy s

/-- The queue has room for one more word: the condition of `Enqueue` (R12, R189). -/
def queueRoom (s : State) : Bool :=
  decide (s.q.length < s.cfg.queueDepth)

/-- A Timeline of `n` slots is within `TIMELINE_CAPACITY` (R167). -/
def withinCapacity (s : State) (n : Nat) : Bool :=
  match s.cfg.timelineCapacity with
  | none => true
  | some capacity => decide (n ≤ capacity)

/-- The numeric codes of the faults (R226). -/
def faultNumber : FaultCode → Nat
  | .noFault => 0
  | .grammarError => 1
  | .channelOverflowError => 2
  | .configError => 3
  | .capacityError => 4

end Sys2Proof.Machine
end

