-- ==== Sys2Proof/Machine/Operands.lean ====
section
/-! DEFINITION. Operand forms: the halves and lanes of a word, the sizes of a request, the order of a plan. -/

namespace Sys2Proof.Machine

/-! ## Words -/

/-- Phase A is bits 15 to 0 (R61, R95). -/
def phaseA (w : PulseWord) : HalfWord :=
  w.extractLsb' 0 16

/-- Phase B is bits 31 to 16 (R61, R95). -/
def phaseB (w : PulseWord) : HalfWord :=
  w.extractLsb' 16 16

/-- `{phaseB, phaseA}` (R61). -/
def pulseWord (a b : HalfWord) : PulseWord :=
  b ++ a

/-- `dirBit = 2*id` (R96, R141). -/
def dirBit (c : Channel) : Nat :=
  2 * c.val

/-- `stepBit = 2*id+1` (R96, R141). -/
def stepBit (c : Channel) : Nat :=
  2 * c.val + 1

/-- A Boolean placed into a bit of a half-word (`zext_16`, R12). -/
def boolHalf (b : Bool) : HalfWord :=
  (BitVec.ofBool b).setWidth 16

/-- `LANEMASK(id)` (R96). -/
def laneMask (c : Channel) : HalfWord :=
  3#16 <<< dirBit c

/-- PULSE_FOR as a function (R140). The only place where a channel becomes a bit position (R143). -/
def pulseFor (c : Channel) (direction action : Bool) : PulseWord :=
  pulseWord
    (boolHalf direction <<< dirBit c ||| boolHalf action <<< stepBit c)
    (boolHalf direction <<< dirBit c)

/-- The well-formed words of R106: in every lane, phase B has the step bit clear and the direction bit of phase A. -/
def wordWellFormed (w : PulseWord) : Bool :=
  decide (∀ c : Channel, (phaseB w).getLsbD (stepBit c) = false ∧
    (phaseB w).getLsbD (dirBit c) = (phaseA w).getLsbD (dirBit c))

/-! ## Requests -/

/-- The stride `1 + speedFactor`, at least 1 (R154, R161). -/
def stride (r : MotionRequest) : Nat :=
  1 + r.speedFactor

/-- `expandedSteps = steps * (1 + speedFactor)` (R154 step 1). -/
def expandedSteps (r : MotionRequest) : Nat :=
  r.steps * stride r

/-! ## Plans -/

/-- Puts a channel's list before the first one of a greater or equal id. -/
def insertById (e : Nat × List Text) : List (Nat × List Text) → List (Nat × List Text)
  | [] => [e]
  | f :: rest => if e.1 ≤ f.1 then e :: f :: rest else f :: insertById e rest

/-- The channels of a plan in ascending numeric id (R150, D30). -/
def ascending (p : Plan) : List (Nat × List Text) :=
  p.channels.foldr insertById []

end Sys2Proof.Machine
end

