-- ==== Sys2Proof/Machine/Ops.lean ====
section
/-! DEFINITION. The named operations over the Timeline, the cursors, the queue and the port (R12, R66), and
fatal entry (R229). There is no return from it but RESET (R230). -/

namespace Sys2Proof.Machine

/-! ## The Timeline -/

/-- The form of the Timeline's contents: every word well-formed (R106). -/
def Memory.wf (tl : List PulseWord) : Bool :=
  tl.all wordWellFormed

/-- `MemRead(t, 1)`: defined only for `t < len(TL)` (R12, R65). -/
def memRead (tl : List PulseWord) (t : Nat) : Option PulseWord :=
  tl[t]?

/-- `MemWrite(t, 1, v)` (R12); a slot that does not exist is not written. -/
def memWrite (tl : List PulseWord) (t : Nat) (v : PulseWord) : List PulseWord :=
  tl.set t v

/-- `MemOr(t, v)` (R12, R66). -/
def memOr (v : PulseWord) (tl : List PulseWord) (t : Nat) : List PulseWord :=
  match memRead tl t with
  | some w => memWrite tl t (w ||| v)
  | none => tl

/-- `Grow(n)`: zero words appended until the length is at least `n` (R12, R157). -/
def grow (n : Nat) (tl : List PulseWord) : List PulseWord :=
  tl ++ List.replicate (n - tl.length) 0#32

/-- `MemOr` of one value on each slot of a list, in order. -/
def orSlots (v : PulseWord) (slots : List Nat) (tl : List PulseWord) : List PulseWord :=
  slots.foldl (memOr v) tl

/-! ## The cursors -/

/-- `CUR[c]` (R22). -/
def cursor (s : State) (c : Channel) : Nat :=
  s.cur[c]

/-- All cursors at slot 0 (R152). -/
def zeroCursors : Vector Nat 8 :=
  Vector.replicate 8 0

/-! ## The queue and the port -/

/-- `Enqueue(w)` (R12), where the queue has room. -/
def enqueue (w : PulseWord) (s : State) : State :=
  { s with q := s.q ++ [w] }

/-- `Emit(h)`: all sixteen lines at once, and the ghost trace (R12, R29, R31). -/
def emit (h : HalfWord) (s : State) : State :=
  { s with port := h, trace := s.trace ++ [h] }

/-! ## Fatal entry -/

/-- A fatal error with what its diagnostic names. -/
structure Diagnostic where
  code : FaultCode
  info : FaultInfo
  deriving DecidableEq, Repr

/-- `raise F(info)` (R229): no Timeline, the consumer stopped, the queue discarded, and the two outputs of R232.
`MODE`, `CHANNEL_COUNT`, `PORT` and `TRACE` stay. -/
def raise (d : Diagnostic) (s : State) : State :=
  { s with
    fault := d.code
    faultInfo := d.info
    tl := []
    cur := zeroCursors
    cst := .unbuilt
    est := .idle
    q := []
    pb := none
    rst := .notReplaying
    safeShutdown := true
    exitStatus := faultNumber d.code }

/-- What an operation leaves: its state, or fatal entry from the state it began in. -/
def settle (s : State) : Except Diagnostic State → State
  | .ok t => t
  | .error d => raise d s

/-- GrammarError names the place and the text (R221). -/
def grammarDiagnostic (channel index : Nat) (text : Text) : Diagnostic :=
  ⟨.grammarError, ⟨some channel, some index, some text⟩⟩

/-- ChannelOverflowError names nothing (R222). -/
def overflowDiagnostic : Diagnostic :=
  ⟨.channelOverflowError, .empty⟩

/-- ConfigError for the mode names the mode as given (R223 a). -/
def modeDiagnostic (given : Text) : Diagnostic :=
  ⟨.configError, ⟨none, none, some given⟩⟩

/-- ConfigError for a channel id names the id (R223 b). -/
def channelDiagnostic (id : Nat) : Diagnostic :=
  ⟨.configError, ⟨some id, none, none⟩⟩

/-- CapacityError names the channel and the request's position (R224). -/
def capacityDiagnostic (c : Channel) (index : Nat) : Diagnostic :=
  ⟨.capacityError, ⟨some c.val, some index, none⟩⟩

end Sys2Proof.Machine
end

