-- ==== Sys2Proof/Machine/Parser.lean ====
section
/-! DEFINITION. MotionInstructionParser: PARSE (R120). -/

namespace Sys2Proof.Machine

/-- What PARSE returns: a request, or a failure that carries the text (R120). -/
def parseResult (text : Text) : Returned :=
  match parse text with
  | some m => .request m
  | none => .parseFailed text

/-- PARSE (R120): it reads no state of the block and writes none. DESIGN CHOICE: a transaction that carries it runs in
every state, also outside a COMPILE, where D33 says that it cannot be asked for (log entry 19). -/
def execParse (text : Text) (s : State) : Host.Outcome State Fault Refusal :=
  .next { s with ret := parseResult text }

end Sys2Proof.Machine
end

