-- ==== Sys2Proof/Machine/PinMap.lean ====
section
/-! DEFINITION. ChannelPinMap: PULSE_FOR (R140). -/

namespace Sys2Proof.Machine

/-- PULSE_FOR (R140): it reads no state of the block and writes none. DESIGN CHOICE: a transaction that carries it runs
in every state, also outside a COMPILE, where D33 says that it cannot be asked for (log entry 19). -/
def execPulseFor (c : Channel) (direction action : Bool) (s : State) :
    Host.Outcome State Fault Refusal :=
  .next { s with ret := .pulse (pulseFor c direction action) }

end Sys2Proof.Machine
end

