-- ==== Sys2Proof/Machine/Compiler.lean ====
section
/-! DEFINITION. TimelineCompiler: MOVE, HOLD, MERGE_CHANNEL and COMPILE (R150 to R172). -/

namespace Sys2Proof.Machine

/-! ## The per-request algorithm -/

/-- The slots of step 3: `[start, start + expandedSteps)` (R154). -/
def baselineSlots (start : Nat) (r : MotionRequest) : List Nat :=
  (List.range (expandedSteps r)).map fun i => start + i

/-- The slots of step 4: `start + i * stride` for the `steps` values of `i` (R154, R159). -/
def actionSlots (start : Nat) (r : MotionRequest) : List Nat :=
  (List.range r.steps).map fun i => start + i * stride r

/-- Steps 2 to 4: growth, the baseline on every slot, the action at the stride (R154). -/
def mergedTimeline (c : Channel) (start : Nat) (r : MotionRequest) (tl : List PulseWord) :
    List PulseWord :=
  orSlots (pulseFor c r.direction r.action) (actionSlots start r)
    (orSlots (pulseFor c r.direction false) (baselineSlots start r)
      (grow (start + expandedSteps r) tl))

/-- MERGE_REQUEST (R154); `index` is what a CapacityError records (R167). -/
def mergeRequest (c : Channel) (index : Nat) (r : MotionRequest) (s : State) :
    Except Diagnostic State :=
  if withinCapacity s (cursor s c + expandedSteps r) then
    .ok { s with
      tl := mergedTimeline c (cursor s c) r s.tl
      cur := s.cur.set c (cursor s c + expandedSteps r) }
  else
    .error (capacityDiagnostic c index)

/-- The requests of one channel in list order, the first at position `index` (R153). -/
def mergeRequests (c : Channel) : Nat → List MotionRequest → State → Except Diagnostic State
  | _, [], s => .ok s
  | index, r :: rest, s =>
    match mergeRequest c index r s with
    | .ok t => mergeRequests c (index + 1) rest t
    | .error d => .error d

/-- An operation that stands inside COMPILE: outside it, it is no command, and it changes nothing (R104, R181). -/
def buildStep (op : State → Except Diagnostic State) (s : State) : State :=
  if insideCompile s then settle s (op s) else s

/-- MOVE (R155). -/
def execMove (site : Site) (steps : Nat) (direction : Bool) (speedFactor : Nat) (s : State) :
    Host.Outcome State Fault Refusal :=
  .next (buildStep (mergeRequest site.channel site.index ⟨true, steps, direction, speedFactor⟩) s)

/-- HOLD (R156). -/
def execHold (site : Site) (steps : Nat) (direction : Bool) (speedFactor : Nat) (s : State) :
    Host.Outcome State Fault Refusal :=
  .next (buildStep (mergeRequest site.channel site.index ⟨false, steps, direction, speedFactor⟩) s)

/-- MERGE_CHANNEL (R153). -/
def execMergeChannel (c : Channel) (requests : List MotionRequest) (s : State) :
    Host.Outcome State Fault Refusal :=
  .next (buildStep (mergeRequests c 0 requests) s)

/-! ## COMPILE -/

/-- The count check (R222, first in R228). -/
def checkCount (p : Plan) : Except Diagnostic Unit :=
  if nchMax < p.channels.length then .error overflowDiagnostic else .ok ()

/-- The mode check (R223 a). DESIGN CHOICE: a mode under `other` is a ConfigError whatever its text, "single" and "loop"
among them (log entry 21). -/
def checkMode : PlanMode → Except Diagnostic ReplayMode
  | .known mode => .ok mode
  | .other given => .error (modeDiagnostic given)

/-- The id check, in the order of the list (R223 b). -/
def checkIds : List (Nat × List Text) → Except Diagnostic (List (Channel × List Text))
  | [] => .ok []
  | (id, texts) :: rest =>
    if h : id < 8 then (checkIds rest).map fun more => (⟨id, h⟩, texts) :: more
    else .error (channelDiagnostic id)

/-- The texts of one channel, the first at position `index`: the first that fails is a GrammarError (R221). -/
def parseTexts (c : Channel) : Nat → List Text → Except Diagnostic (List MotionRequest)
  | _, [] => .ok []
  | index, text :: rest =>
    match parse text with
    | some m => (parseTexts c (index + 1) rest).map fun more => m :: more
    | none => .error (grammarDiagnostic c.val index text)

/-- Every text of every channel, in the order of the list (R228). -/
def parseLists : List (Channel × List Text) →
    Except Diagnostic (List (Channel × List MotionRequest))
  | [] => .ok []
  | (c, texts) :: rest =>
    match parseTexts c 0 texts with
    | .ok requests => (parseLists rest).map fun more => (c, requests) :: more
    | .error d => .error d

/-- The validation of a plan before one slot is written (R151, R228): the mode and the requests of each channel. -/
def validate (p : Plan) :
    Except Diagnostic (ReplayMode × List (Channel × List MotionRequest)) := do
  checkCount p
  let mode ← checkMode p.mode
  let lists ← checkIds (ascending p)
  let requests ← parseLists lists
  return (mode, requests)

/-- One MERGE_CHANNEL after another (R150, R71 item 2). -/
def mergeChannels : List (Channel × List MotionRequest) → State → Except Diagnostic State
  | [], s => .ok s
  | (c, requests) :: rest, s =>
    match mergeRequests c 0 requests s with
    | .ok t => mergeChannels rest t
    | .error d => .error d

/-- The body of COMPILE (R150): the validation, the build from an empty Timeline (R152), the freeze (R165). -/
def compileBody (p : Plan) (s : State) : Except Diagnostic State := do
  let (mode, requests) ← validate p
  let built ← mergeChannels requests { s with tl := [], cur := zeroCursors }
  return { built with mode := mode, channelCount := p.channels.length, cst := .frozen }

/-- COMPILE (R150, R151) as one transition. -/
def execCompile (plan : Plan) (s : State) : Host.Outcome State Fault Refusal :=
  .next (if compileAccepted s
    then settle s (compileBody plan { s with cst := .building })
    else s)

end Sys2Proof.Machine
end

