-- ==== Sys2Proof/Machine/Engine.lean ====
section
/-! DEFINITION. PulseEngine: the Host's commands on it, the Producer's step and the Consumer's steps (R180 to R203). -/

namespace Sys2Proof.Machine

/-! ## Host commands -/

/-- START (R183). -/
def execStart (s : State) : Host.Outcome State Fault Refusal :=
  .next (if faulted s then s else { s with est := .active })

/-- STOP (R184): never refused; `PORT` is held. -/
def execStop (s : State) : Host.Outcome State Fault Refusal :=
  .next { s with est := .idle, q := [], pb := none, rst := .notReplaying }

/-- What REPLAY_ONCE does (R185); an empty Timeline is over at once (R201). -/
def armOnce (s : State) : State :=
  if replayAccepted s then
    { s with enqn := 0, rst := if s.tl.length = 0 then .notReplaying else .replaying .once 0 }
  else s

/-- What REPLAY_LOOP does (R186). -/
def armLoop (s : State) : State :=
  if replayAccepted s then { s with enqn := 0, rst := .replaying .loop 0 } else s

/-- REPLAY_ONCE (R185). -/
def execReplayOnce (s : State) : Host.Outcome State Fault Refusal :=
  .next (armOnce s)

/-- REPLAY_LOOP (R186). -/
def execReplayLoop (s : State) : Host.Outcome State Fault Refusal :=
  .next (armLoop s)

/-- REPLAY (R188): as the plan's mode flag says. -/
def execReplay (s : State) : Host.Outcome State Fault Refusal :=
  .next (match s.mode with
    | .single => armOnce s
    | .loop => armLoop s)

/-! ## Producer -/

/-- Where the replay goes after slot `i` of a Timeline of `n` slots (R189). -/
def advanceReplay (kind : ReplayKind) (i n : Nat) : ReplayState :=
  if i + 1 < n then .replaying kind (i + 1)
  else match kind with
    | .once => .notReplaying
    | .loop => .replaying .loop 0

/-- P_ENQUEUE (R189). Where it is not enabled the Producer waits (R190). -/
def execPEnqueue (s : State) : Host.Outcome State Fault Refusal :=
  .next (match s.rst with
    | .notReplaying => s
    | .replaying kind i =>
      match memRead s.tl i with
      | none => s
      | some w =>
        if queueRoom s then
          { enqueue w s with enqn := s.enqn + 1, rst := advanceReplay kind i s.tl.length }
        else s)

/-! ## Consumer -/

/-- C_EMIT_A (R192): the dequeue and the phase-A emission in one step. Where it is not enabled the
Consumer waits (R194). -/
def execCEmitA (s : State) : Host.Outcome State Fault Refusal :=
  .next (match s.est, s.pb, s.q with
    | .active, none, w :: rest => { emit (phaseA w) s with q := rest, pb := some (phaseB w) }
    | _, _, _ => s)

/-- C_EMIT_B (R193). Where it is not enabled the Consumer waits (R194). -/
def execCEmitB (s : State) : Host.Outcome State Fault Refusal :=
  .next (match s.est, s.pb with
    | .active, some h => { emit h s with pb := none }
    | _, _ => s)

end Sys2Proof.Machine
end

