-- ==== Sys2Proof/Machine/Agents.lean ====
section
/-! DEFINITION. What a step does where no instruction was fetched: a rejected packet, an empty script (R9). -/

namespace Sys2Proof.Machine

/-- A packet that is no instruction. Inside COMPILE, the only caller of the parser and the only way to a lane, a text
outside the grammar is a GrammarError (R123, R221) and a channel above 7 a ConfigError (R223 b, R140). Elsewhere such a
packet is no command (R104, R181). DEDUCED (log entries 11 and 13). -/
def rejectPacket (e : DecodeError) (s : State) : Host.Outcome State Fault Refusal :=
  match e with
  | .grammar site text =>
    .next (buildStep (fun _ => .error (grammarDiagnostic site.channel.val site.index text)) s)
  | .channelAboveSeven channel => .next (buildStep (fun _ => .error (channelDiagnostic channel)) s)
  | .notAMapping => .refused .notAMapping

/-- The Consumer's step: phase B of the word in flight, else phase A of the next word (R192, R193). -/
def consumerStep (s : State) : Host.Outcome State Fault Refusal :=
  match s.pb with
  | some _ => execCEmitB s
  | none => execCEmitA s

/-- The transaction that a move of the Host is. -/
def hostPacket : HostCommand → Packet
  | .reset => .command .reset
  | .compile plan => .command (.compile plan)
  | .start => .command .start
  | .stop => .command .stop
  | .replayOnce => .command .replayOnce
  | .replayLoop => .command .replayLoop
  | .replay => .command .replay

/-- A step with no transaction in the script: the named agent may move (R9). The Host's move puts what it issues into the
script, its own commands only (R203), and the steps that follow take it; as often as the schedule names it, so its
commands may go on without end (R200: "Nothing is assumed of the Host").
DESIGN CHOICE: issuing is a step of its own (log entry 20). -/
def idleStep (agent : Agent) (s : State) : Host.Outcome State Fault Refusal :=
  match agent with
  | .host issues => .next { s with turn := s.turn + 1, inbox := issues.map hostPacket }
  | .producer => execPEnqueue { s with turn := s.turn + 1 }
  | .consumer => consumerStep { s with turn := s.turn + 1 }

end Sys2Proof.Machine
end

