-- ==== Sys2Proof/Machine/Reset.lean ====
section
/-! DEFINITION. RESET (R260, R261). -/

namespace Sys2Proof.Machine

/-- RESET: every piece of the block's state at its reset value, in every state. The configuration stays (R261), and
so does the outside world: the script of transactions and the free schedule (log entry 16). -/
def execReset (s : State) : Host.Outcome State Fault Refusal :=
  .next { State.reset with cfg := s.cfg, inbox := s.inbox, turn := s.turn }

end Sys2Proof.Machine
end

