-- ==== Sys2Proof/Machine/Dispatch.lean ====
section
/-! DEFINITION. One arm per instruction. -/

namespace Sys2Proof.Machine

def exec (i : Instr) (s : State) : Host.Outcome State Fault Refusal :=
  match i with
  | .move site n d k => Sys2Proof.Machine.execMove site n d k s
  | .hold site n d k => Sys2Proof.Machine.execHold site n d k s
  | .reset => Sys2Proof.Machine.execReset s
  | .compile plan => Sys2Proof.Machine.execCompile plan s
  | .parse text => Sys2Proof.Machine.execParse text s
  | .pulseFor c d a => Sys2Proof.Machine.execPulseFor c d a s
  | .mergeChannel c requests => Sys2Proof.Machine.execMergeChannel c requests s
  | .start => Sys2Proof.Machine.execStart s
  | .stop => Sys2Proof.Machine.execStop s
  | .replayOnce => Sys2Proof.Machine.execReplayOnce s
  | .replayLoop => Sys2Proof.Machine.execReplayLoop s
  | .replay => Sys2Proof.Machine.execReplay s
  | .pEnqueue => Sys2Proof.Machine.execPEnqueue s
  | .cEmitA => Sys2Proof.Machine.execCEmitA s
  | .cEmitB => Sys2Proof.Machine.execCEmitB s

end Sys2Proof.Machine
end

