-- ==== Sys2Proof/Machine/Step.lean ====
section
/-! DEFINITION. One step of the machine: one atomic state change by one agent (R8). -/

namespace Sys2Proof.Machine

/-- One step under a schedule: the next transaction of the script is taken, decoded and run; with none, the agent that
the schedule names moves (R9). -/
def stepUnder (schedule : Nat → Agent) (s : State) : Host.Outcome State Fault Refusal :=
  match s.inbox with
  | [] => idleStep (schedule s.turn) s
  | p :: rest =>
    match decode p with
    | .ok i => exec i { s with inbox := rest }
    | .error e => rejectPacket e { s with inbox := rest }

/-- The step of the machine: under the free schedule (log entry 2). -/
def step (s : State) : Host.Outcome State Fault Refusal :=
  stepUnder Config.schedule s

/-- The state whose next step runs the motion text in the bytes of `w`: the text stands first in the script, and a
COMPILE is running, without which a motion instruction has no effect (log entry 12). -/
def State.withFetchWord (s : State) (nbits w : Nat) : State :=
  { s with inbox := wordPacket nbits w :: s.inbox, cst := .building }

end Sys2Proof.Machine
end

