-- ==== Sys2Proof/Machine/Status.lean ====
section
/-! DEFINITION. What the Host can read at any time (R10, R25) and the configuration object (R98). -/

namespace Sys2Proof.Machine

/-- The status outputs of R25, the flags of R24 among them. -/
structure Status where
  cst : CompilerState
  est : EngineState
  fault : FaultCode
  faultInfo : FaultInfo
  safeShutdown : Bool
  exitStatus : Nat
  mode : ReplayMode
  channelCount : Nat
  qFull : Bool
  qEmpty : Bool
  frozen : Bool
  faulted : Bool
  replayBusy : Bool
  deriving DecidableEq, Repr

/-- A read of the status changes nothing (R203), so it is a function and no step. -/
def readStatus (s : State) : Status where
  cst := s.cst
  est := s.est
  fault := s.fault
  faultInfo := s.faultInfo
  safeShutdown := s.safeShutdown
  exitStatus := s.exitStatus
  mode := s.mode
  channelCount := s.channelCount
  qFull := qFull s
  qEmpty := qEmpty s
  frozen := isFrozen s
  faulted := faulted s
  replayBusy := replayBusy s

/-- Format CFG: "`{interPhaseDelayTicks, channelCount, queueDepth}`" (R98). -/
structure ConfigObject where
  interPhaseDelayTicks : Nat
  channelCount : Nat
  queueDepth : Nat
  deriving DecidableEq, Repr

/-- The configuration object of a state (R7). -/
def configObject (s : State) : ConfigObject where
  interPhaseDelayTicks := s.cfg.interPhaseDelayTicks
  channelCount := s.channelCount
  queueDepth := s.cfg.queueDepth

end Sys2Proof.Machine
end

