-- ==== Sys2Proof/Machine/Timing.lean ====
section
/-! DEFINITION. The quantities of R197 and R276 in ticks. No step reads them: the model has no time (R8). -/

namespace Sys2Proof.Machine

/-- From one emission to the next while data is available (R197). -/
def emissionTicks (c : Config) : Nat :=
  c.interPhaseDelayTicks

/-- The slot period (R276, C2). -/
def slotTicks (c : Config) : Nat :=
  2 * emissionTicks c

/-- How long a step pulse is high: phase A to phase B (R276). -/
def pulseHighTicks (c : Config) : Nat :=
  emissionTicks c

/-- How long the step line is low between two pulses of a MOVE (R276). -/
def pulseLowTicks (c : Config) (speedFactor : Nat) : Nat :=
  (2 * speedFactor + 1) * emissionTicks c

/-- The step period of a MOVE (R197, R276). -/
def stepTicks (c : Config) (speedFactor : Nat) : Nat :=
  2 * (1 + speedFactor) * emissionTicks c

/-- The duration of a request, MOVE or HOLD (R276). -/
def requestTicks (c : Config) (r : MotionRequest) : Nat :=
  2 * r.steps * (1 + r.speedFactor) * emissionTicks c

/-- The duration of one pass of the Timeline (R276). -/
def passTicks (s : State) : Nat :=
  2 * s.tl.length * emissionTicks s.cfg

end Sys2Proof.Machine
end

