-- ==== Sys2Proof/Safety.lean ====
section
/-! DEFINITION. The terms that claims use: the grammar in its own words, the closed form of a Timeline, fatal entry
spelled out, the invariant of R36, the end of a run. No definition here is called by the machine. -/

namespace Sys2Proof.Machine

/-! ## The grammar (R91 to R94) -/

/-- One or more ASCII digits (R91, R92). -/
def IsDigitRun (run : Text) : Prop :=
  run ≠ [] ∧ ∀ c ∈ run, '0' ≤ c ∧ c ≤ '9'

/-- The text with these fields: the grammar of R91, character by character. -/
def motionText (a : Bool) (s : Text) (d : Bool) (v : Text) : Text :=
  ['a', if a then '1' else '0', '_', 's'] ++ s ++ ['_', 'd', if d then '1' else '0', '_', 'v'] ++ v

/-- The value of a run of digits as R93 writes it: the sum of the digits times their powers of ten. -/
def positional (run : Text) : Nat :=
  ((List.range run.length).map fun i =>
    ((run.getD i '0').toNat - '0'.toNat) * 10 ^ (run.length - 1 - i)).sum

/-- `text` is in the grammar, and `m` is what R94 makes of its fields. -/
def ReadsAs (text : Text) (m : MotionRequest) : Prop :=
  ∃ s v, IsDigitRun s ∧ IsDigitRun v ∧ text = motionText m.action s m.direction v ∧
    m.steps = positional s ∧ m.speedFactor = positional v

/-- A numeral without a leading zero; `"0"` itself is one (R103). -/
def NoLeadingZero (run : Text) : Prop :=
  run = ['0'] ∨ run.head? ≠ some '0'

/-! ## Lanes (R96) -/

/-- Channel `c`'s direction bit in phase A. -/
def dirA (c : Channel) (w : PulseWord) : Bool := w.getLsbD (2 * c.val)

/-- Channel `c`'s step bit in phase A. -/
def stepA (c : Channel) (w : PulseWord) : Bool := w.getLsbD (2 * c.val + 1)

/-- Channel `c`'s direction bit in phase B. -/
def dirB (c : Channel) (w : PulseWord) : Bool := w.getLsbD (16 + 2 * c.val)

/-- Channel `c`'s step bit in phase B. -/
def stepB (c : Channel) (w : PulseWord) : Bool := w.getLsbD (16 + 2 * c.val + 1)

/-- The four bits of channel `c`'s lane in both phases. -/
def lane (c : Channel) (w : PulseWord) : Bool × Bool × Bool × Bool :=
  (dirA c w, stepA c w, dirB c w, stepB c w)

/-- Slot `t` of a Timeline, a slot beyond the end read as the zero word growth would put there. -/
def slot (tl : List PulseWord) (t : Nat) : PulseWord := tl.getD t 0#32

/-! ## Requests and plans in closed form (R163, R164) -/

/-- `L` of R163 for one list of requests. -/
def channelLength (requests : List MotionRequest) : Nat :=
  (requests.map fun r => r.steps * (1 + r.speedFactor)).sum

/-- `S_j` of R164: where request `j` of a channel starts. -/
def requestStart (requests : List MotionRequest) (j : Nat) : Nat :=
  channelLength (requests.take j)

/-- The texts a plan lists under an id; none where it does not name the id. -/
def planTexts (p : Plan) (id : Nat) : List Text :=
  match p.channels.find? fun e => e.1 = id with
  | some e => e.2
  | none => []

/-- The requests a plan lists under a channel. -/
def planRequests (p : Plan) (c : Channel) : List MotionRequest :=
  (planTexts p c.val).filterMap parse

/-- A Timeline of `n` slots does not pass `TIMELINE_CAPACITY` (R167). -/
def Fits (s : State) (n : Nat) : Prop :=
  ∀ capacity, s.cfg.timelineCapacity = some capacity → n ≤ capacity

/-- The block is not faulted and no replay is in progress (R151). -/
def AcceptsCompile (s : State) : Prop :=
  s.fault = .noFault ∧ s.rst = .notReplaying

/-- A plan that COMPILE can build in state `s`: none of the errors of R228 applies. -/
structure Buildable (p : Plan) (m : ReplayMode) (s : State) : Prop where
  mapping : p.wellFormed = true
  count : p.channels.length ≤ 8
  mode : p.mode = .known m
  ids : ∀ e ∈ p.channels, e.1 ≤ 7
  grammar : ∀ e ∈ p.channels, ∀ text ∈ e.2, ∃ r, parse text = some r
  capacity : ∀ c, Fits s (channelLength (planRequests p c))

/-! ## Fatal entry spelled out (R229, R232) -/

/-- The state after a fatal error with code `number`: R229 line by line. -/
def fatalState (code : FaultCode) (number : Nat) (info : FaultInfo) (s : State) : State :=
  { s with
    fault := code, faultInfo := info
    tl := [], cur := #v[0, 0, 0, 0, 0, 0, 0, 0], cst := .unbuilt
    est := .idle, q := [], pb := none, rst := .notReplaying
    safeShutdown := true, exitStatus := number }

/-! ## The engine -/

/-- The emissions of a sequence of words: phase A then phase B of each (R62). -/
def emissions (words : List PulseWord) : List HalfWord :=
  words.flatMap fun w => [w.extractLsb' 0 16, w.extractLsb' 16 16]

/-- What has been emitted and what the block still holds to emit, in order (R195). -/
def emittedAndOwed (s : State) : List HalfWord :=
  s.trace ++ s.pb.toList ++ emissions s.q

/-- The end of a run of a `once` replay; a faulted block is never at it (R199). -/
def RunEnded (s : State) : Prop :=
  s.rst = .notReplaying ∧ s.q = [] ∧ s.pb = none ∧ s.fault = .noFault

/-- The steps of the Producer's replay and of the Consumer, as transactions. -/
def IsAgentStep (p : Packet) : Prop :=
  p = .command .pEnqueue ∨ p = .command .cEmitA ∨ p = .command .cEmitB

/-! ## Fair runs (R200) -/

/-- A run that goes on for ever, under a schedule of the agents and of what the Host issues, for ever or not. -/
def IsRunUnder (schedule : Nat → Agent) (run : Nat → State) : Prop :=
  ∀ n, stepUnder schedule (run n) = .next (run (n + 1))

/-- P_ENQUEUE is enabled (R189). -/
def ProducerEnabled (s : State) : Prop :=
  ∃ kind i, s.rst = .replaying kind i ∧ i < s.tl.length ∧ s.q.length < s.cfg.queueDepth

/-- C_EMIT_A or C_EMIT_B is enabled (R192, R193). -/
def ConsumerEnabled (s : State) : Prop :=
  s.est = .active ∧ (s.pb ≠ none ∨ s.q ≠ [])

/-- The next step is the Producer's. -/
def ProducerMoves (schedule : Nat → Agent) (s : State) : Prop :=
  (s.inbox = [] ∧ schedule s.turn = .producer) ∨ ∃ rest, s.inbox = .command .pEnqueue :: rest

/-- The next step is the Consumer's: with a script, the one of its two steps that the word in flight enables. -/
def ConsumerMoves (schedule : Nat → Agent) (s : State) : Prop :=
  (s.inbox = [] ∧ schedule s.turn = .consumer) ∨
  ∃ rest, s.inbox = .command (if s.pb = none then .cEmitA else .cEmitB) :: rest

/-- The two weak-fairness assumptions of R200: an agent whose step stays enabled takes it. Nothing is assumed of
the Host. -/
structure Fair (schedule : Nat → Agent) (run : Nat → State) : Prop where
  producer : ∀ n, (∀ m, n ≤ m → ProducerEnabled (run m)) → ∃ m, n ≤ m ∧ ProducerMoves schedule (run m)
  consumer : ∀ n, (∀ m, n ≤ m → ConsumerEnabled (run m)) → ∃ m, n ≤ m ∧ ConsumerMoves schedule (run m)

/-- The next transaction, if there is one, does not end or replace a replay: no STOP, no RESET, and once the Producer has
ended its replay no COMPILE and no replay command (before that they are refused, R151, R187). -/
def Undisturbed (s : State) : Prop :=
  ∀ p rest i, s.inbox = p :: rest → decode p = .ok i → i ≠ .stop ∧ i ≠ .reset ∧
    (s.rst = .notReplaying → i ≠ .replay ∧ i ≠ .replayOnce ∧ i ≠ .replayLoop ∧ ∀ plan, i ≠ .compile plan)

/-! ## The invariant (R36) -/

/-- The items of R36 that speak of one state, with R6's bounds on the configuration. Item 2 is said of every state
(`timelineLength`, `timelineCapacity`), and so is R170: a lane is empty past its channel's cursor. Item 8 speaks of the
past: its trace here is `queueWords`. `phaseBReleases` says the same of the half-word in flight. -/
structure Invariant (s : State) : Prop where
  config : s.cfg.wellFormed = true
  queueBound : s.q.length ≤ s.cfg.queueDepth
  timelineLength : s.tl.length = Finset.univ.sup fun c : Channel => s.cur[c]
  timelineCapacity : Fits s s.tl.length
  lanesPastCursor : ∀ (c : Channel) (u : Nat), s.cur[c] ≤ u → lane c (slot s.tl u) = (false, false, false, false)
  unbuiltEmpty : s.cst = .unbuilt → s.tl = [] ∧ ∀ c : Channel, s.cur[c] = 0
  replayFrozen : ∀ kind i, s.rst = .replaying kind i →
    s.cst = .frozen ∧ s.fault = .noFault ∧ i ≤ s.tl.length
  faultHalts : s.fault ≠ .noFault → s.est = .idle ∧ s.q = [] ∧ s.pb = none ∧
    s.rst = .notReplaying ∧ s.cst = .unbuilt ∧ s.safeShutdown = true ∧ s.exitStatus ≠ 0
  idleHoldsNothing : s.est = .idle → s.pb = none
  timelineWords : ∀ w ∈ s.tl, ∀ c, stepB c w = false ∧ dirB c w = dirA c w
  queueWords : ∀ w ∈ s.q, ∀ c, stepB c w = false ∧ dirB c w = dirA c w
  phaseBReleases : ∀ h, s.pb = some h → ∀ c : Channel, h.getLsbD (2 * c.val + 1) = false
  outputs : s.exitStatus = faultNumber s.fault ∧ (s.safeShutdown = true ↔ s.fault ≠ .noFault)

end Sys2Proof.Machine
end

