-- ==== Sys2Proof/Certificates/Slice0/Obligations.lean ====
section
/-! DEFINITION. The statements for the provers, in the order of the spec's files. -/

open Sys2Proof Sys2Proof.Machine

/-! ## Format T and packets (30_encoding.md, 40_parser.md) -/

/-- Decoding the encoding of a well-formed instruction gives it back, with every operand at every value (R91, R99,
R103, R104). -/
def Obligations.DecodeInvertsEncode : Prop :=
  ∀ i : Instr, i.wellFormed = true → decode (encode i) = .ok i

/-- R91: the texts that parse are exactly those of the grammar, as strictly as the spec's decision D6 reads it; the
shortest has 11 characters. -/
def Obligations.ParserAcceptsTheGrammar : Prop :=
  (∀ text m, parse text = some m ↔ ReadsAs text m) ∧
  (∀ text m, parse text = some m → 11 ≤ text.length) ∧
  parse "a0_s0_d0_v0".toList = some ⟨false, 0, false, 0⟩

/-- R93: a digit run has its positional decimal value, of any size, and leading zeros do not change it. (The base and the
leading zeros are the spec's own: "from general knowledge, not in source", D6.) -/
def Obligations.DigitRunsAreDecimal : Prop :=
  ∀ run, IsDigitRun run →
    takeDigits run = some (positional run, []) ∧ takeDigits ('0' :: run) = some (positional run, [])

/-- R126: every request survives serialising and parsing, and no two canonical texts parse alike. -/
def Obligations.ParseInvertsSerialise : Prop :=
  (∀ m, parse (serialise m) = some m) ∧
  (∀ m m', parse (serialise m) = parse (serialise m') → serialise m = serialise m')

/-- R103: a legal text whose digit runs have no leading zero is what its request serialises to (the serialiser is the
spec's decision D27). -/
def Obligations.SerialiseInvertsParse : Prop :=
  ∀ (a d : Bool) (s v : Text), IsDigitRun s → IsDigitRun v → NoLeadingZero s → NoLeadingZero v →
    ∃ m, parse (motionText a s d v) = some m ∧ serialise m = motionText a s d v

/-- R120: PARSE gives the request the grammar says, or fails with the offending text; the block is untouched. That the
result stands in a field `ret` is the model's choice (log entry 4), and so is that the transaction runs in every state,
also outside a COMPILE and in a faulted block, where D33 says that it cannot be asked for (log entry 19). -/
def Obligations.ParseReturnsRequestOrOffendingText : Prop :=
  ∀ (text : Text) (s : State),
    (∀ m, ReadsAs text m → exec (.parse text) s = .next { s with ret := .request m }) ∧
    ((¬ ∃ m, ReadsAs text m) → exec (.parse text) s = .next { s with ret := .parseFailed text })

/-- Texts written out from R91 and R99 decode to the instruction they stand for. The fourth is the eleven bytes of P1 as
a number: that the first character is the lowest byte, and that a number stands at channel 0, index 0, is the model's
choice (log entry 12); R60 fixes no byte order. -/
def Obligations.WrittenTextsDecode : Prop :=
  decode (.motion 3 1 "a1_s200_d0_v3".toList) = .ok (.move ⟨3, 1⟩ 200 false 3) ∧
  decode (.motion 7 0 "a0_s5_d1_v2".toList) = .ok (.hold ⟨7, 0⟩ 5 true 2) ∧
  decode (.motion 0 0 "a1_s010_d1_v00".toList) = .ok (.move ⟨0, 0⟩ 10 true 0) ∧
  decodeTableWord 88 0x30765F31645F32735F3161 = some (.move ⟨0, 0⟩ 2 true 0)

/-- The illegal strings that R100 lists are all rejected, as grammar errors at their place (D6). -/
def Obligations.ListedIllegalTextsAreRejected : Prop :=
  ∀ text ∈ ["a1_s10_v0_d1", "s10_a1_d1_v0", "a1_s10_d1", "a1_s_d1_v0", "a1s10d1v0", "a1_sx_d1_v0",
      "a1_s1O_d1_v0", "a2_s10_d1_v0", "a1_s10_d2_v0", "a1_s-5_d1_v0", "a1_s1.5_d1_v0", "A1_S10_D1_V0",
      " a1_s10_d1_v0", "a1_s10_d1_v0 ", "a1_s10_d1_v0\n", "a1_s10_d1_v0_x", "a11_s10_d1_v0", ""],
    parse text.toList = none ∧ decode (.motion 0 0 text.toList) = .error (.grammar ⟨0, 0⟩ text.toList)

/-! ## One step (00_scope.md) -/

/-- When the first packet of the script decodes to an instruction, a step takes the packet and runs it. -/
def Obligations.StepRunsTheDecodedInstruction : Prop :=
  ∀ (s : State) (p : Packet) (rest : List Packet) (i : Instr), s.inbox = p :: rest → decode p = .ok i →
    i.wellFormed = true → step s = exec i { s with inbox := rest }

/-- A fetched text outside the grammar, while a COMPILE runs, is a GrammarError with its place and text (R221); outside a
COMPILE it is ignored (R104, R181). That a transaction can carry such a text, and both outcomes, are the model's choice
(log entry 13). -/
def Obligations.StepRaisesGrammarErrorInsideCompile : Prop :=
  ∀ (s : State) (c : Channel) (index : Nat) (text : Text) (rest : List Packet),
    s.inbox = .motion c.val index text :: rest → (¬ ∃ m, ReadsAs text m) →
    (s.cst = .building →
      step s = .next (fatalState .grammarError 1 ⟨some c.val, some index, some text⟩
        { s with inbox := rest })) ∧
    (s.cst ≠ .building → step s = .next { s with inbox := rest })

/-- With an empty script any agent may move (R9), and the one that the schedule names does: the Host puts the commands it
issues into the script, the Producer takes its step, the Consumer takes phase B of the word in flight or else phase A of the
next word. The Host issues the commands of R203 and no others: it cannot enqueue or emit. The machine's own schedule is free
(log entry 2); that the Host's issuing is a step of its own is the model's choice (log entry 20). -/
def Obligations.EmptyScriptLeavesTheAgentsFree : Prop :=
  (∀ s : State, step s = stepUnder Config.schedule s) ∧
  (∀ i : Instr, i.wellFormed = true → ((∃ c, decode (hostPacket c) = .ok i) ↔
    i = .reset ∨ (∃ plan, i = .compile plan) ∨ i = .start ∨ i = .stop ∨ i = .replayOnce ∨ i = .replayLoop ∨
      i = .replay)) ∧
  ∀ (schedule : Nat → Agent) (s : State), s.inbox = [] →
    (∀ issues, schedule s.turn = .host issues →
      stepUnder schedule s = .next { s with turn := s.turn + 1, inbox := issues.map hostPacket }) ∧
    (schedule s.turn = .producer → stepUnder schedule s = exec .pEnqueue { s with turn := s.turn + 1 }) ∧
    (schedule s.turn = .consumer → s.pb ≠ none →
      stepUnder schedule s = exec .cEmitB { s with turn := s.turn + 1 }) ∧
    (schedule s.turn = .consumer → s.pb = none →
      stepUnder schedule s = exec .cEmitA { s with turn := s.turn + 1 })

/-! ## Words and lanes (20_memory.md, 41_pinmap.md) -/

/-- R61: phase A is the low half of a word and phase B the high half (the spec's decision D2). -/
def Obligations.PhasesAreTheHalvesOfAWord : Prop :=
  (∀ a b : HalfWord, phaseA (b ++ a) = a ∧ phaseB (b ++ a) = b) ∧
  ∀ w : PulseWord, phaseB w ++ phaseA w = w

/-- R140: the direction bit in both phases, the step bit in phase A only, every other bit 0; no state of the block is
touched. That the word stands in a field `ret` is the model's choice (log entry 4), and so is that the transaction runs in
every state, also outside a COMPILE and in a faulted block, where D33 says that it cannot be asked for (log entry 19). -/
def Obligations.PulseForSetsDirectionAndStep : Prop :=
  ∀ (c : Channel) (d a : Bool) (s : State), ∃ w : PulseWord,
    exec (.pulseFor c d a) s = .next { s with ret := .pulse w } ∧
    ∀ b : Fin 16,
      (phaseA w).getLsbD b.val = ((d && decide (b.val = 2 * c.val)) || (a && decide (b.val = 2 * c.val + 1))) ∧
      (phaseB w).getLsbD b.val = (d && decide (b.val = 2 * c.val))

/-- R144: the four lane laws ("derived: from rule R140"). -/
def Obligations.LaneLaws : Prop :=
  ∀ (c c' : Channel) (d a d' a' : Bool),
    pulseFor c d a &&& ~~~(laneMask c ++ laneMask c) = 0#32 ∧
    (c ≠ c' → pulseFor c d a &&& pulseFor c' d' a' = 0#32) ∧
    pulseFor c d false ||| pulseFor c d a = pulseFor c d a ∧
    (stepB c (pulseFor c d a) = false ∧ dirB c (pulseFor c d a) = dirA c (pulseFor c d a))

/-- R67: a merge inside COMPILE never clears a set bit, and sets none outside the lane of its channel. -/
def Obligations.MergesStayInTheirLane : Prop :=
  ∀ (s t : State) (c : Channel) (index n k : Nat) (d : Bool) (requests : List MotionRequest) (i : Instr),
    s.cst = .building → t.cst = .building →
    (i = .move ⟨c, index⟩ n d k ∨ i = .hold ⟨c, index⟩ n d k ∨ i = .mergeChannel c requests) →
    exec i s = .next t →
    ∀ u, slot s.tl u &&& slot t.tl u = slot s.tl u ∧
      slot t.tl u &&& ~~~(laneMask c ++ laneMask c) = slot s.tl u &&& ~~~(laneMask c ++ laneMask c)

/-! ## The compiler (42_compiler.md) -/

/-- R155: MOVE, in closed form. `start` is the cursor before. The Timeline is grown to `start + N*(1+K)`; the lane of
each slot of the range becomes the direction and, at the stride, a step; every other lane and slot is as before (a new
slot reads as the zero word); the cursor ends after the range; nothing else changes. A request that passes the capacity
raises CapacityError. The closed form speaks of lanes that hold nothing yet; past the cursor they are so in every state of
the invariant (`lanesPastCursor`, kept by every step). -/
def Obligations.MoveWritesItsPulses : Prop :=
  ∀ (s : State) (c : Channel) (index n : Nat) (d : Bool) (k : Nat), s.cst = .building →
    (Fits s (cursor s c + n * (1 + k)) → ∃ tl,
      exec (.move ⟨c, index⟩ n d k) s =
        .next { s with tl := tl, cur := s.cur.set c (cursor s c + n * (1 + k)) } ∧
      tl.length = max s.tl.length (cursor s c + n * (1 + k)) ∧
      (∀ u, cursor s c ≤ u → u < cursor s c + n * (1 + k) →
        lane c (slot s.tl u) = (false, false, false, false) →
        lane c (slot tl u) = (d, decide ((u - cursor s c) % (1 + k) = 0), d, false)) ∧
      (∀ u c', c' ≠ c ∨ u < cursor s c ∨ cursor s c + n * (1 + k) ≤ u →
        lane c' (slot tl u) = lane c' (slot s.tl u))) ∧
    (¬ Fits s (cursor s c + n * (1 + k)) →
      exec (.move ⟨c, index⟩ n d k) s =
        .next (fatalState .capacityError 4 ⟨some c.val, some index, none⟩ s))

/-- R156: HOLD, in closed form: as MOVE, with the step bit 0 in every slot. -/
def Obligations.HoldKeepsDirectionWithoutPulses : Prop :=
  ∀ (s : State) (c : Channel) (index n : Nat) (d : Bool) (k : Nat), s.cst = .building →
    (Fits s (cursor s c + n * (1 + k)) → ∃ tl,
      exec (.hold ⟨c, index⟩ n d k) s =
        .next { s with tl := tl, cur := s.cur.set c (cursor s c + n * (1 + k)) } ∧
      tl.length = max s.tl.length (cursor s c + n * (1 + k)) ∧
      (∀ u, cursor s c ≤ u → u < cursor s c + n * (1 + k) →
        lane c (slot s.tl u) = (false, false, false, false) →
        lane c (slot tl u) = (d, false, d, false)) ∧
      (∀ u c', c' ≠ c ∨ u < cursor s c ∨ cursor s c + n * (1 + k) ≤ u →
        lane c' (slot tl u) = lane c' (slot s.tl u))) ∧
    (¬ Fits s (cursor s c + n * (1 + k)) →
      exec (.hold ⟨c, index⟩ n d k) s =
        .next (fatalState .capacityError 4 ⟨some c.val, some index, none⟩ s))

/-- R159: a MOVE asserts the step bit in exactly `steps` slots of its range (past the cursor no step bit is set before, by
`lanesPastCursor` of the invariant). -/
def Obligations.MovePulsesExactlyStepsTimes : Prop :=
  ∀ (s t : State) (c : Channel) (index n : Nat) (d : Bool) (k : Nat),
    s.cst = .building → (∀ u, cursor s c ≤ u → stepA c (slot s.tl u) = false) →
    exec (.move ⟨c, index⟩ n d k) s = .next t → t.cst = .building →
    ((List.range (n * (1 + k))).countP fun o => stepA c (slot t.tl (cursor s c + o))) = n

/-- R153: MERGE_CHANNEL appends every request of the sequence, in order, from the channel's cursor. Request `j` takes the
slots from `requestStart requests j` on, counted from that cursor; each slot ORs in its word. The first request that
passes the capacity raises CapacityError with its position. -/
def Obligations.MergeChannelAppendsItsRequests : Prop :=
  ∀ (s : State) (c : Channel) (requests : List MotionRequest), s.cst = .building →
    (Fits s (cursor s c + channelLength requests) → ∃ tl,
      exec (.mergeChannel c requests) s =
        .next { s with tl := tl, cur := s.cur.set c (cursor s c + channelLength requests) } ∧
      tl.length = (if requests = [] then s.tl.length
        else max s.tl.length (cursor s c + channelLength requests)) ∧
      (∀ (j : Nat) (r : MotionRequest) (o : Nat), requests[j]? = some r → o < r.steps * (1 + r.speedFactor) →
        slot tl (cursor s c + requestStart requests j + o) =
          slot s.tl (cursor s c + requestStart requests j + o) |||
            pulseFor c r.direction (r.action && decide (o % (1 + r.speedFactor) = 0))) ∧
      (∀ u, u < cursor s c ∨ cursor s c + channelLength requests ≤ u → slot tl u = slot s.tl u)) ∧
    (∀ j, j < requests.length → (j = 0 ∨ Fits s (cursor s c + requestStart requests j)) →
      ¬ Fits s (cursor s c + requestStart requests (j + 1)) →
      exec (.mergeChannel c requests) s =
        .next (fatalState .capacityError 4 ⟨some c.val, some j, none⟩ s))

/-- R168 ("derived: from rule R154"): a request of 0 steps changes nothing (the cursor stands inside the Timeline and
the Timeline inside the capacity, by the invariant). -/
def Obligations.ZeroStepsChangeNothing : Prop :=
  ∀ (s : State) (c : Channel) (index k : Nat) (d : Bool), s.cst = .building →
    cursor s c ≤ s.tl.length → Fits s s.tl.length →
    exec (.move ⟨c, index⟩ 0 d k) s = .next s ∧ exec (.hold ⟨c, index⟩ 0 d k) s = .next s

/-- Outside a COMPILE the operations inside it are no commands: they change nothing (R104, R181). That a transaction
which carries one is ignored is the model's choice (log entry 5). -/
def Obligations.BuildOperationsNeedACompile : Prop :=
  ∀ (s : State) (c : Channel) (index n k : Nat) (d : Bool) (requests : List MotionRequest),
    s.cst ≠ .building →
    exec (.move ⟨c, index⟩ n d k) s = .next s ∧ exec (.hold ⟨c, index⟩ n d k) s = .next s ∧
    exec (.mergeChannel c requests) s = .next s

/-- R163, R164 ("derived: from rules R152 to R160"): a COMPILE of a plan that has none of the errors ends frozen (R165),
with the length and the cursors of R163 and the contents of R164, whatever Timeline stood before; the engine, the queue,
the port and the outputs are left alone (R150). -/
def Obligations.CompileBuildsTheTimeline : Prop :=
  ∀ (s : State) (p : Plan) (m : ReplayMode), AcceptsCompile s → Buildable p m s →
    ∃ (tl : List PulseWord) (cur : Vector Nat 8),
      exec (.compile p) s = .next { s with
        tl := tl, cur := cur, cst := .frozen, mode := m, channelCount := p.channels.length } ∧
      tl.length = (Finset.univ.sup fun c : Channel => channelLength (planRequests p c)) ∧
      (∀ c : Channel, cur[c] = channelLength (planRequests p c)) ∧
      (∀ (c : Channel) (j : Nat) (r : MotionRequest) (u : Nat) (w : PulseWord),
        (planRequests p c)[j]? = some r → requestStart (planRequests p c) j ≤ u →
        u < requestStart (planRequests p c) j + r.steps * (1 + r.speedFactor) → tl[u]? = some w →
        dirA c w = r.direction ∧
        stepA c w = (r.action && decide ((u - requestStart (planRequests p c) j) % (1 + r.speedFactor) = 0)) ∧
        dirB c w = r.direction ∧ stepB c w = false) ∧
      (∀ (c : Channel) (u : Nat) (w : PulseWord), channelLength (planRequests p c) ≤ u → tl[u]? = some w →
        lane c w = (false, false, false, false))

/-- A COMPILE in a faulted block or during a replay is refused: ignored, with no state change (R151; that a refusal is an
ignored command is the spec's decision D19). -/
def Obligations.CompileIsRefusedWhenFaultedOrReplaying : Prop :=
  ∀ (s : State) (p : Plan), s.fault ≠ .noFault ∨ s.rst ≠ .notReplaying →
    exec (.compile p) s = .next s

/-- R222: more than 8 channels are a ChannelOverflowError, whatever else is wrong with the plan. -/
def Obligations.CompileRejectsNineChannels : Prop :=
  ∀ (s : State) (p : Plan), AcceptsCompile s → 8 < p.channels.length →
    exec (.compile p) s = .next (fatalState .channelOverflowError 2 ⟨none, none, none⟩ s)

/-- R223: an unknown mode is a ConfigError with the mode as given; then an id above 7 is one with that id, the smallest
first (R228). The id check and the order are the spec's decisions D8 and D9. That the constructor `other` makes a mode
unknown, whatever its text, is the model's choice (log entry 21). -/
def Obligations.CompileRejectsBadModeOrChannel : Prop :=
  ∀ (s : State) (p : Plan), AcceptsCompile s → p.channels.length ≤ 8 →
    (∀ given, p.mode = .other given →
      exec (.compile p) s = .next (fatalState .configError 3 ⟨none, none, some given⟩ s)) ∧
    (∀ m id, p.mode = .known m → 7 < id → (∃ texts, (id, texts) ∈ p.channels) →
      (∀ e ∈ p.channels, 7 < e.1 → id ≤ e.1) →
      exec (.compile p) s = .next (fatalState .configError 3 ⟨some id, none, none⟩ s))

/-- R221: the first text that does not parse is a GrammarError with its id, its position and itself. First is in ascending
id and then list order, the spec's decision D9 (R228). -/
def Obligations.CompileReportsTheFirstBadText : Prop :=
  ∀ (s : State) (p : Plan) (m : ReplayMode) (id : Nat) (good rest : List Text) (text : Text),
    AcceptsCompile s → p.wellFormed = true → p.channels.length ≤ 8 → p.mode = .known m →
    (∀ e ∈ p.channels, e.1 ≤ 7) → (id, good ++ text :: rest) ∈ p.channels →
    (∀ e ∈ p.channels, e.1 < id → ∀ t ∈ e.2, ∃ r, parse t = some r) →
    (∀ t ∈ good, ∃ r, parse t = some r) → parse text = none →
    exec (.compile p) s =
      .next (fatalState .grammarError 1 ⟨some id, some good.length, some text⟩ s)

/-- The first request, in ascending id and then list order, that passes `TIMELINE_CAPACITY` is a CapacityError with its
channel and position (R167, R224, R228: the spec's decisions D5 and D9). -/
def Obligations.CompileReportsTheFirstOverflow : Prop :=
  ∀ (s : State) (p : Plan) (m : ReplayMode) (c : Channel) (j : Nat),
    AcceptsCompile s → p.wellFormed = true → p.channels.length ≤ 8 → p.mode = .known m →
    (∀ e ∈ p.channels, e.1 ≤ 7) → (∀ e ∈ p.channels, ∀ text ∈ e.2, ∃ r, parse text = some r) →
    (∀ c' : Channel, c' < c → Fits s (channelLength (planRequests p c'))) →
    j < (planRequests p c).length → (j = 0 ∨ Fits s (requestStart (planRequests p c) j)) →
    ¬ Fits s (requestStart (planRequests p c) (j + 1)) →
    exec (.compile p) s = .next (fatalState .capacityError 4 ⟨some c.val, some j, none⟩ s)

/-- R166, R231: an accepted COMPILE of any plan either ends frozen without a fault, and then the whole plan was buildable,
no channel and no instruction of it in error, or it ends in fatal entry with no Timeline at all (the spec's decision
D10). What a buildable plan builds is CompileBuildsTheTimeline. -/
def Obligations.CompileIsAllOrNothing : Prop :=
  ∀ (s : State) (p : Plan), AcceptsCompile s → ∃ t, exec (.compile p) s = .next t ∧
    ((t.cst = .frozen ∧ t.fault = .noFault ∧ t.channelCount = p.channels.length ∧
        (p.wellFormed = true → ∃ m, Buildable p m s)) ∨
     ∃ code info, code ≠ .noFault ∧ t = fatalState code (faultNumber code) info s)

/-- R162: the order in which the channels are merged does not change what is built, and so COMPILE, which takes ascending
ids, does not depend on the order in which a plan lists its channels (D30). -/
def Obligations.MergeOrderDoesNotMatter : Prop :=
  (∀ (lists lists' : List (Channel × List MotionRequest)) (s t : State),
    (lists.map Prod.fst).Nodup → lists.Perm lists' →
    mergeChannels lists s = .ok t → mergeChannels lists' s = .ok t) ∧
  (∀ (p p' : Plan) (s : State), p.wellFormed = true → p.channels.Perm p'.channels → p.mode = p'.mode →
    exec (.compile p) s = exec (.compile p') s)

/-- R146, R169 ("derived: from rule R144" and "from rule R164"): lane `c` of every compiled slot depends only on channel
`c`'s list. Two plans that agree on that list give lane `c` the same bits wherever both Timelines reach, whatever the
other channels hold. -/
def Obligations.LaneDependsOnItsOwnListOnly : Prop :=
  ∀ (s s' t t' : State) (p p' : Plan) (c : Channel), p.wellFormed = true → p'.wellFormed = true →
    planTexts p c.val = planTexts p' c.val → AcceptsCompile s → AcceptsCompile s' →
    exec (.compile p) s = .next t → exec (.compile p') s' = .next t' →
    t.cst = .frozen → t'.cst = .frozen →
    t.cur[c] = t'.cur[c] ∧
    ∀ (u : Nat) (w w' : PulseWord), t.tl[u]? = some w → t'.tl[u]? = some w' → lane c w = lane c w'

/-- A frozen Timeline is only read (R165): no instruction but COMPILE and RESET writes it, a cursor, or the freeze. -/
def Obligations.FrozenTimelineIsReadOnly : Prop :=
  ∀ (i : Instr) (s t : State), s.cst = .frozen → i ≠ .reset → (∀ p, i ≠ .compile p) → exec i s = .next t →
    t.tl = s.tl ∧ t.cur = s.cur ∧ t.cst = .frozen

/-! ## The engine (43_engine.md) -/

/-- R183: START makes the engine Active, and is refused in a faulted block. -/
def Obligations.StartActivatesTheEngine : Prop :=
  ∀ s : State,
    (s.fault = .noFault → exec .start s = .next { s with est := .active }) ∧
    (s.fault ≠ .noFault → exec .start s = .next s)

/-- R184: STOP, in every state: the engine Idle, the queue and the word in flight discarded, the replay over; the port
and everything else held (the spec's decisions D13, D14 and D17). -/
def Obligations.StopIdlesAndDiscards : Prop :=
  ∀ s : State, exec .stop s =
    .next { s with est := .idle, q := [], pb := none, rst := .notReplaying }

/-- R185: REPLAY_ONCE arms the Producer at slot 0; with an empty Timeline it is over at once (R201). -/
def Obligations.ReplayOnceArmsTheProducer : Prop :=
  ∀ s : State,
    (s.fault = .noFault → s.cst = .frozen → s.rst = .notReplaying →
      (s.tl = [] → exec .replayOnce s = .next { s with enqn := 0, rst := .notReplaying }) ∧
      (s.tl ≠ [] → exec .replayOnce s = .next { s with enqn := 0, rst := .replaying .once 0 })) ∧
    (s.fault ≠ .noFault ∨ s.cst ≠ .frozen ∨ s.rst ≠ .notReplaying → exec .replayOnce s = .next s)

/-- R186, R187: REPLAY_LOOP arms the Producer at slot 0, also over an empty Timeline (R201, the spec's decision D21), or is
refused (D19, D20). -/
def Obligations.ReplayLoopArmsTheProducer : Prop :=
  ∀ s : State,
    (s.fault = .noFault → s.cst = .frozen → s.rst = .notReplaying →
      exec .replayLoop s = .next { s with enqn := 0, rst := .replaying .loop 0 }) ∧
    (s.fault ≠ .noFault ∨ s.cst ≠ .frozen ∨ s.rst ≠ .notReplaying → exec .replayLoop s = .next s)

/-- R188: REPLAY does REPLAY_ONCE or REPLAY_LOOP as `MODE` says (the spec's decision D32). -/
def Obligations.ReplayFollowsTheMode : Prop :=
  ∀ s : State,
    (s.mode = .single → exec .replay s = exec .replayOnce s) ∧
    (s.mode = .loop → exec .replay s = exec .replayLoop s) ∧
    (s.fault = .noFault → s.cst = .frozen → s.rst = .notReplaying → s.tl ≠ [] →
      exec .replay s = .next { s with
        enqn := 0, rst := .replaying (if s.mode = .single then .once else .loop) 0 })

/-- R189: P_ENQUEUE copies slot `i` to the queue's tail and advances, ends a `once` replay after the last slot, or wraps a
`loop` to slot 0 (R202). -/
def Obligations.EnqueueCopiesTheNextSlot : Prop :=
  ∀ (s : State) (kind : ReplayKind) (i : Nat) (w : PulseWord), s.rst = .replaying kind i → s.tl[i]? = some w →
    s.q.length < s.cfg.queueDepth →
    (i + 1 < s.tl.length → exec .pEnqueue s = .next { s with
      q := s.q ++ [w], enqn := s.enqn + 1, rst := .replaying kind (i + 1) }) ∧
    (i + 1 = s.tl.length → kind = .once → exec .pEnqueue s = .next { s with
      q := s.q ++ [w], enqn := s.enqn + 1, rst := .notReplaying }) ∧
    (i + 1 = s.tl.length → kind = .loop → exec .pEnqueue s = .next { s with
      q := s.q ++ [w], enqn := s.enqn + 1, rst := .replaying .loop 0 })

/-- R189, R190: where the step is not enabled (no replay, no such slot, a full queue) the Producer waits and nothing
changes: no word is dropped or overwritten. -/
def Obligations.EnqueueWaitsWhenNotEnabled : Prop :=
  ∀ s : State, (s.rst = .notReplaying ∨ s.cfg.queueDepth ≤ s.q.length ∨
      ∃ kind i, s.rst = .replaying kind i ∧ s.tl.length ≤ i) →
    exec .pEnqueue s = .next s

/-- R192: C_EMIT_A takes the head of the queue, puts bits 15 to 0 on the lines and keeps bits 31 to 16 for phase B. -/
def Obligations.EmitATakesTheNextWord : Prop :=
  ∀ (s : State) (w : PulseWord) (rest : List PulseWord), s.est = .active → s.pb = none → s.q = w :: rest →
    exec .cEmitA s = .next { s with
      q := rest, port := w.extractLsb' 0 16, trace := s.trace ++ [w.extractLsb' 0 16]
      pb := some (w.extractLsb' 16 16) }

/-- R193: C_EMIT_B puts the phase B in flight on the lines. -/
def Obligations.EmitBReleasesTheWordInFlight : Prop :=
  ∀ (s : State) (h : HalfWord), s.est = .active → s.pb = some h →
    exec .cEmitB s = .next { s with port := h, trace := s.trace ++ [h], pb := none }

/-- R194, with R192 and R193: where a Consumer step is not enabled nothing changes; an Idle engine has none enabled (the
spec's decision D16). -/
def Obligations.ConsumerWaitsWhenNotEnabled : Prop :=
  ∀ s : State,
    (s.est = .idle ∨ s.pb ≠ none ∨ s.q = [] → exec .cEmitA s = .next s) ∧
    (s.est = .idle ∨ s.pb = none → exec .cEmitB s = .next s)

/-- R182: only START leaves Idle, only STOP, RESET and fatal entry leave Active, and only an Active engine drains the
queue (a STOP, a RESET or a fault discards it). -/
def Obligations.EngineChangesStateByStartAndStopOnly : Prop :=
  ∀ (i : Instr) (s t : State), exec i s = .next t →
    (s.est = .idle → t.est = .active → i = .start) ∧
    (s.est = .active → t.est = .idle → i = .stop ∨ i = .reset ∨ t.fault ≠ .noFault) ∧
    (∀ w, s.q = w :: t.q → (s.est = .active ∧ i = .cEmitA) ∨ i = .stop ∨ i = .reset ∨ t.fault ≠ .noFault)

/-- R195 ("derived: from rules R189, R192, R193"): what was emitted and what is still owed change together. No
instruction but RESET takes back an emission or emits what was not owed; START, the replay commands and the Consumer's
steps lose nothing that is owed; only P_ENQUEUE adds to it, both halves of the slot it copies. -/
def Obligations.EmissionsFollowTheQueue : Prop :=
  ∀ (i : Instr) (s t : State), exec i s = .next t → i ≠ .reset →
    s.trace <+: t.trace ∧ t.trace <+: emittedAndOwed s ∧
    (i ≠ .pEnqueue → emittedAndOwed t <+: emittedAndOwed s) ∧
    (i = .cEmitA ∨ i = .cEmitB ∨ i = .start ∨ i = .replay ∨ i = .replayOnce ∨ i = .replayLoop →
      emittedAndOwed t = emittedAndOwed s) ∧
    (i = .pEnqueue → t = s ∨ ∃ kind k w, s.rst = .replaying kind k ∧ s.tl[k]? = some w ∧
      emittedAndOwed t = emittedAndOwed s ++ [w.extractLsb' 0 16, w.extractLsb' 16 16])

/-- R196: a `once` replay that is not stopped enqueues every slot once and emits `A` then `B` of each, in slot order,
however the Producer's and the Consumer's steps interleave: any script of them that reaches the end of the run (R199,
the spec's decisions D16 and D26) leaves that trace, that count and the last phase B on the port. -/
def Obligations.OnceReplayEmitsTheWholeTimeline : Prop :=
  ∀ (s t : State), s.rst = .replaying .once 0 → s.tl ≠ [] → s.q = [] → s.pb = none → s.enqn = 0 →
    (∀ p ∈ s.inbox, IsAgentStep p) →
    Sys2Proof.core.run s.inbox.length s = .next t → RunEnded t →
    t.trace = s.trace ++ emissions s.tl ∧ t.enqn = s.tl.length ∧
    some t.port = (emissions s.tl).getLast? ∧ t.tl = s.tl ∧ t.est = s.est

/-- R196, R199 (the spec's decision D26): such a script exists for every Timeline and every queue depth: enqueue, emit A,
emit B, once for each slot, on an Active engine, takes an armed `once` replay to the end of the run. -/
def Obligations.OnceReplayReachesItsEnd : Prop :=
  ∀ s : State, s.rst = .replaying .once 0 → s.tl ≠ [] → s.q = [] → s.pb = none → s.est = .active →
    s.fault = .noFault → 1 ≤ s.cfg.queueDepth →
    s.inbox = (List.replicate s.tl.length
      [.command .pEnqueue, .command .cEmitA, .command .cEmitB]).flatten →
    ∃ t, Sys2Proof.core.run (3 * s.tl.length) s = .next t ∧ RunEnded t ∧ t.inbox = [] ∧
      t.trace = s.trace ++ emissions s.tl ∧ t.enqn = s.enqn + s.tl.length ∧ t.est = .active

/-- R191: after a STOP no word is enqueued until a replay command is accepted: with no replay in progress the queue only
loses words and the count stands, whatever instruction runs. -/
def Obligations.NoEnqueueWithoutAReplay : Prop :=
  ∀ s : State, (∀ t, exec .stop s = .next t → t.rst = .notReplaying) ∧
    ∀ (i : Instr) (t : State), s.rst = .notReplaying → exec i s = .next t →
      t.q <:+ s.q ∧
      (i ≠ .replay → i ≠ .replayOnce → i ≠ .replayLoop → i ≠ .reset →
        t.rst = .notReplaying ∧ t.enqn = s.enqn)

/-- R198: only C_EMIT_A, C_EMIT_B and RESET write the port. -/
def Obligations.PortBelongsToTheEngine : Prop :=
  ∀ (i : Instr) (s t : State), exec i s = .next t → i ≠ .cEmitA → i ≠ .cEmitB → i ≠ .reset →
    t.port = s.port ∧ t.trace = s.trace

/-- R265 ("derived: from 43_engine.md rules R189, R190, R192"): a replay armed against an Idle engine with a full queue
hangs: no step of the Producer or the Consumer changes anything. -/
def Obligations.ReplayIntoAnIdleEngineHangs : Prop :=
  ∀ s : State, s.est = .idle → s.q.length = s.cfg.queueDepth →
    exec .pEnqueue s = .next s ∧ exec .cEmitA s = .next s ∧ exec .cEmitB s = .next s

/-- R194 (D16): in a state of the invariant, an emission of phase B leaves every step line 0. -/
def Obligations.PhaseBLeavesStepLinesLow : Prop :=
  ∀ (s t : State) (h : HalfWord), Invariant s → s.est = .active → s.pb = some h → exec .cEmitB s = .next t →
    ∀ c : Channel, t.port.getLsbD (2 * c.val + 1) = false

/-! ## Errors (60_exceptions.md) -/

/-- R220: a fault arises only in COMPILE and the operations inside it; elsewhere the register keeps its value (RESET
clears it). The spec marks the rule "derived: from 43_engine.md rules R183 to R193". -/
def Obligations.FaultsAriseOnlyInCompile : Prop :=
  ∀ (i : Instr) (s t : State), exec i s = .next t → s.fault = .noFault → t.fault ≠ .noFault →
    (∃ p, i = .compile p) ∨ s.cst = .building ∧
      ((∃ site n d k, i = .move site n d k ∨ i = .hold site n d k) ∨ ∃ c rs, i = .mergeChannel c rs)

/-- R230 (the spec's decision D18): in a faulted block nothing but RESET changes anything (PARSE and PULSE_FOR, which
touch no state of the block, return their value in the model's own field `ret`, log entries 4 and 19). -/
def Obligations.FaultedBlockIsHalted : Prop :=
  ∀ (i : Instr) (s t : State), Invariant s → s.fault ≠ .noFault → i ≠ .reset → exec i s = .next t →
    { t with ret := s.ret } = s

/-! ## Reset (70_reset_and_hazards.md) -/

/-- R260 (the spec's decisions D25 and D17): RESET, in every state, faulted or not, gives every piece of the block's
state its reset value. The configuration stays (R261); so do the script and the free schedule, the model's own (log
entry 16). -/
def Obligations.ResetRestoresTheResetState : Prop :=
  ∀ s : State, exec .reset s = .next
    { tl := [], cur := #v[0, 0, 0, 0, 0, 0, 0, 0], cst := .unbuilt, mode := .single, channelCount := 0
      est := .idle, fault := .noFault, faultInfo := ⟨none, none, none⟩, safeShutdown := false
      exitStatus := 0, q := [], pb := none, port := 0x0000#16, rst := .notReplaying, trace := []
      enqn := 0, cfg := s.cfg, inbox := s.inbox, turn := s.turn, ret := .nothing }

/-- R35, R24: the values after reset (three are the source's, the rest the spec's decisions D17, D22, D25 and D29), and
the flags that follow from them. -/
def Obligations.ResetStateHasTheStatedValues : Prop :=
  State.reset.tl = [] ∧ (∀ c : Channel, State.reset.cur[c] = 0) ∧ State.reset.cst = .unbuilt ∧
  State.reset.mode = .single ∧ State.reset.channelCount = 0 ∧ State.reset.est = .idle ∧
  State.reset.fault = .noFault ∧ State.reset.faultInfo = ⟨none, none, none⟩ ∧ State.reset.q = [] ∧
  State.reset.pb = none ∧ State.reset.port = 0x0000#16 ∧ State.reset.rst = .notReplaying ∧
  State.reset.safeShutdown = false ∧ State.reset.exitStatus = 0 ∧ State.reset.trace = [] ∧
  State.reset.enqn = 0 ∧
  qFull State.reset = false ∧ qEmpty State.reset = true ∧ isFrozen State.reset = false ∧
  faulted State.reset = false ∧ replayBusy State.reset = false

/-- R261, R7: no step writes the configuration. -/
def Obligations.ConfigurationNeverChanges : Prop :=
  ∀ s t : State, step s = .next t → t.cfg = s.cfg

/-- R276 ("derived: from 43_engine.md rule R197"): the slot period, the step period and the duration of a request follow
from the one constant delay. -/
def Obligations.DurationsFollowFromOneDelay : Prop :=
  ∀ (c : Config) (r : MotionRequest),
    slotTicks c = 2 * c.interPhaseDelayTicks ∧ pulseHighTicks c = c.interPhaseDelayTicks ∧
    stepTicks c r.speedFactor = pulseHighTicks c + pulseLowTicks c r.speedFactor ∧
    stepTicks c r.speedFactor = (1 + r.speedFactor) * slotTicks c ∧
    requestTicks c r = expandedSteps r * slotTicks c

/-! ## The invariant (10_state.md) -/

/-- R36, which the spec derives from R35 and the rules that write state, holds at reset. -/
def Obligations.InvariantHoldsAtReset : Prop :=
  Invariant State.reset

/-- R36: every step keeps the invariant, from every state that has it: among it the words of the Timeline stay
well-formed (R106) and a lane stays empty past its channel's cursor (R170). -/
def Obligations.EveryStepKeepsTheInvariant : Prop :=
  ∀ s t : State, Invariant s → step s = .next t → Invariant t

/-! ## Transactions that are no instruction -/

/-- A packet that names a channel above 7 is, while a COMPILE runs, a ConfigError with that id (R223 b, the spec's decision
D8; R140: COMPILE rejects it before PULSE_FOR); outside a COMPILE it is ignored (R104, R181). That a transaction can name
such a channel, and both outcomes, are the model's choice (log entry 11). -/
def Obligations.StepOnAChannelAboveSeven : Prop :=
  ∀ (s : State) (p : Packet) (rest : List Packet) (id : Nat), s.inbox = p :: rest → 7 < id →
    ((∃ index text, p = .motion id index text) ∨ (∃ d a, p = .command (.pulseFor id d a)) ∨
      ∃ requests, p = .command (.mergeChannel id requests)) →
    (s.cst = .building →
      step s = .next (fatalState .configError 3 ⟨some id, none, none⟩ { s with inbox := rest })) ∧
    (s.cst ≠ .building → step s = .next { s with inbox := rest })

/-- A COMPILE transaction whose plan names an id twice is not in format PLAN (R97) and is refused by name: what is not in
that form is outside the model (U6). That such a transaction can be written, and its refusal, are the model's choice (log
entry 10). -/
def Obligations.StepRefusesAPlanNamingAnIdTwice : Prop :=
  ∀ (s : State) (p : Plan) (rest : List Packet), s.inbox = .command (.compile p) :: rest →
    ¬ (p.channels.map Prod.fst).Nodup → step s = .refused .notAMapping

/-! ## Fair runs (43_engine.md) -/

/-- R200 (the spec's decision D26): with weak fairness of the Producer and the Consumer, under every schedule and whatever
the Host issues, for ever or not, that does not end or replace the replay (no STOP, no RESET; a COMPILE or a replay command
only while it is refused), a `once` replay on an Active engine always reaches the end of R199, with every slot it had left
emitted after what was owed; and a Producer that replays slots, of either kind, always gets its turn, however full the
queue was. -/
def Obligations.FairReplaysGoOn : Prop :=
  ∀ (schedule : Nat → Agent) (run : Nat → State), IsRunUnder schedule run → Fair schedule run →
    (run 0).fault = .noFault → (run 0).cst = .frozen → (run 0).est = .active → 1 ≤ (run 0).cfg.queueDepth →
    (∀ n, Undisturbed (run n)) →
    (∀ i, (run 0).rst = .replaying .once i → i < (run 0).tl.length →
      ∃ n, RunEnded (run n) ∧
        (run n).trace = emittedAndOwed (run 0) ++ emissions ((run 0).tl.drop i)) ∧
    (∀ kind i, (run 0).rst = .replaying kind i → i < (run 0).tl.length →
      ∃ n, ProducerEnabled (run n) ∧ ProducerMoves schedule (run n))
end

