-- ==== Sys2Proof/Laws/Parser.lean ====
section
/-! SUPPORT. What the parser and the serialiser do, field by field. -/

namespace Sys2Proof.Machine

/-! ## Digits -/

theorem isDigit_iff (c : Char) : isDigit c = true ↔ '0' ≤ c ∧ c ≤ '9' := by
  simp only [isDigit, Bool.and_eq_true, decide_eq_true_eq, Char.le_def, UInt32.le_iff_toNat_le,
    Char.toNat]
  rfl

theorem isDigitRun_iff (run : Text) : IsDigitRun run ↔ run ≠ [] ∧ ∀ c ∈ run, isDigit c = true := by
  simp [IsDigitRun, isDigit_iff]

theorem digitValue_lt {c : Char} (h : isDigit c = true) : digitValue c < 10 := by
  simp only [isDigit, Bool.and_eq_true, decide_eq_true_eq, digitValue] at *
  omega

theorem digitChar_isDigit {d : Nat} (h : d < 10) : isDigit (digitChar d) = true := by
  interval_cases d <;> decide

theorem digitValue_digitChar {d : Nat} (h : d < 10) : digitValue (digitChar d) = d := by
  interval_cases d <;> decide

theorem digitChar_digitValue {c : Char} (h : isDigit c = true) : digitChar (digitValue c) = c := by
  simp only [isDigit, Bool.and_eq_true, decide_eq_true_eq] at h
  unfold digitChar digitValue
  rw [Nat.add_sub_cancel' h.1, Char.ofNat_toNat]

@[simp] theorem decimal_nil : decimal [] = 0 := rfl

theorem decimal_concat (run : Text) (c : Char) :
    decimal (run ++ [c]) = 10 * decimal run + digitValue c := by
  simp [decimal]

theorem decimal_zero_cons (run : Text) : decimal ('0' :: run) = decimal run := rfl

theorem positional_concat (run : Text) (c : Char) :
    positional (run ++ [c]) = 10 * positional run + digitValue c := by
  have hmap : ((List.range run.length).map fun i =>
      (((run ++ [c]).getD i '0').toNat - '0'.toNat) * 10 ^ ((run ++ [c]).length - 1 - i)) =
      (List.range run.length).map fun i =>
        10 * (((run.getD i '0').toNat - '0'.toNat) * 10 ^ (run.length - 1 - i)) := by
    apply List.map_congr_left
    intro i hi
    rw [List.mem_range] at hi
    have hpow : (run ++ [c]).length - 1 - i = (run.length - 1 - i) + 1 := by
      simp only [List.length_append, List.length_singleton]; omega
    have hget : (run ++ [c]).getD i '0' = run.getD i '0' := by
      simp [List.getD_eq_getElem?_getD, List.getElem?_append_left hi]
    rw [hpow, hget, pow_succ]; ring
  have hlast : (run ++ [c]).getD run.length '0' = c := by simp
  unfold positional
  rw [List.length_append, List.length_singleton, List.range_succ, List.map_append, List.sum_append]
  simp only [List.length_append, List.length_singleton] at hmap
  rw [hmap, List.sum_map_mul_left]
  simp [digitValue]

/-- The left-to-right evaluation of a run is the sum of R93. -/
theorem decimal_eq_positional (run : Text) : decimal run = positional run := by
  induction run using List.reverseRecOn with
  | nil => rfl
  | append_singleton init c ih => rw [decimal_concat, positional_concat, ih]

/-! ## The fields of a text -/

theorem takeDigits_append {run rest : Text} (hrun : IsDigitRun run)
    (hrest : ∀ c, rest.head? = some c → isDigit c = false) :
    takeDigits (run ++ rest) = some (decimal run, rest) := by
  rw [isDigitRun_iff] at hrun
  have htake : (run ++ rest).takeWhile isDigit = run := by
    rw [List.takeWhile_append_of_pos hrun.2]
    cases rest with
    | nil => simp
    | cons c cs => simp [hrest c rfl]
  have hdrop : (run ++ rest).dropWhile isDigit = rest := by
    rw [List.dropWhile_append_of_pos hrun.2]
    cases rest with
    | nil => simp
    | cons c cs => simp [hrest c rfl]
  simp [takeDigits, htake, hdrop, hrun.1]

/-- If a digit field is read, the text is a run of digits of that value and the rest. -/
theorem takeDigits_eq_some {text rest : Text} {n : Nat} (h : takeDigits text = some (n, rest)) :
    ∃ run, IsDigitRun run ∧ text = run ++ rest ∧ n = decimal run := by
  unfold takeDigits at h
  split at h
  · cases h
  · next hne =>
    simp only [Option.some.injEq, Prod.mk.injEq] at h
    refine ⟨text.takeWhile isDigit, (isDigitRun_iff _).2 ⟨hne, ?_⟩, ?_, h.1.symm⟩
    · intro c hc; exact List.mem_takeWhile_imp hc
    · rw [← h.2, List.takeWhile_append_dropWhile]

theorem dropMarker_eq_some {marker text rest : Text} :
    dropMarker marker text = some rest ↔ text = marker ++ rest := by
  induction marker generalizing text with
  | nil => simp [dropMarker]
  | cons m marker ih =>
    cases text with
    | nil => simp [dropMarker]
    | cons c text =>
      by_cases h : m = c
      · subst h; simp [dropMarker, ih]
      · simp [dropMarker, h, Ne.symm h]

theorem takeBit_eq_some {text rest : Text} {b : Bool} :
    takeBit text = some (b, rest) ↔ text = (if b then '1' else '0') :: rest := by
  unfold takeBit
  split
  · cases b <;> simp
  · cases b <;> simp
  · next h0 h1 =>
    cases b
    · simpa using fun h => h0 rest h
    · simpa using fun h => h1 rest h

theorem motionText_eq (a d : Bool) (s v : Text) :
    motionText a s d v = 'a' :: (if a then '1' else '0') :: '_' :: 's' ::
      (s ++ '_' :: 'd' :: (if d then '1' else '0') :: '_' :: 'v' :: v) := by
  simp [motionText]

/-! ## Numerals -/

theorem decReversed_digits (fuel n : Nat) : ∀ c ∈ decReversed fuel n, isDigit c = true := by
  induction fuel generalizing n with
  | zero => simp [decReversed]
  | succ fuel ih =>
    intro c hc
    simp only [decReversed, List.mem_cons] at hc
    rcases hc with rfl | hc
    · exact digitChar_isDigit (Nat.mod_lt _ (by decide))
    · split at hc
      · simp at hc
      · exact ih _ c hc

theorem decimal_decReversed (fuel n : Nat) (h : n < 10 ^ fuel) :
    decimal (decReversed fuel n).reverse = n := by
  induction fuel generalizing n with
  | zero => simp at h; subst h; rfl
  | succ fuel ih =>
    simp only [decReversed, List.reverse_cons, decimal_concat,
      digitValue_digitChar (Nat.mod_lt n (by decide : 0 < 10))]
    split
    · next h0 => simp; omega
    · rw [ih (n / 10) (by rw [pow_succ] at h; omega)]; omega

theorem lt_pow_log2 (n : Nat) : n < 10 ^ (n.log2 + 1) :=
  lt_of_lt_of_le Nat.lt_log2_self (Nat.pow_le_pow_left (by decide) _)

theorem dec_isDigitRun (n : Nat) : IsDigitRun (dec n) := by
  rw [isDigitRun_iff]
  refine ⟨?_, fun c hc => decReversed_digits _ n c (by simpa [dec] using hc)⟩
  simp [dec, decReversed]

theorem decimal_dec (n : Nat) : decimal (dec n) = n :=
  decimal_decReversed _ n (lt_pow_log2 n)

theorem decimal_pos {run : Text} (hd : ∀ c ∈ run, isDigit c = true) (hne : run ≠ [])
    (h0 : run.head? ≠ some '0') : 0 < decimal run := by
  induction run using List.reverseRecOn with
  | nil => exact absurd rfl hne
  | append_singleton init c ih =>
    rw [decimal_concat]
    by_cases hi : init = []
    · subst hi
      have hc := hd c (by simp)
      have : digitValue c ≠ 0 := fun h => h0 (by
        have := digitChar_digitValue hc
        rw [h] at this; rw [← this]; rfl)
      omega
    · have := ih (fun x hx => hd x (by simp [hx])) hi (by
        cases init with
        | nil => exact absurd rfl hi
        | cons x xs => simpa using h0)
      omega

theorem decReversed_decimal {run : Text} (hd : ∀ c ∈ run, isDigit c = true) (hne : run ≠ [])
    (h0 : NoLeadingZero run) (fuel : Nat) (hf : decimal run < 10 ^ fuel) (hf0 : 0 < fuel) :
    decReversed fuel (decimal run) = run.reverse := by
  induction run using List.reverseRecOn generalizing fuel with
  | nil => exact absurd rfl hne
  | append_singleton init c ih =>
    obtain ⟨fuel, rfl⟩ : ∃ f, fuel = f + 1 := ⟨fuel - 1, by omega⟩
    have hc := hd c (by simp)
    have hlt := digitValue_lt hc
    rw [decimal_concat] at hf ⊢
    have hmod : (10 * decimal init + digitValue c) % 10 = digitValue c := by omega
    have hdiv : (10 * decimal init + digitValue c) / 10 = decimal init := by omega
    simp only [decReversed, hmod, hdiv, List.reverse_append, List.reverse_singleton,
      List.singleton_append, digitChar_digitValue hc, List.cons.injEq, true_and]
    by_cases hi : init = []
    · subst hi; rfl
    · have hi0 : init.head? ≠ some '0' := by
        cases init with
        | nil => exact absurd rfl hi
        | cons x xs =>
          rcases h0 with h0 | h0
          · simp at h0
          · simpa using h0
      have hinit : ∀ x ∈ init, isDigit x = true := fun x hx => hd x (by simp [hx])
      have hpos := decimal_pos hinit hi hi0
      rw [if_neg (by omega)]
      have hlow : decimal init < 10 ^ fuel := by rw [pow_succ] at hf; omega
      refine ih hinit hi (Or.inr hi0) fuel hlow ?_
      rcases Nat.eq_zero_or_pos fuel with h | h
      · subst h; simp at hlow; omega
      · exact h

/-- The numeral of a number is the only run of its value without a leading zero. -/
theorem dec_decimal {run : Text} (hd : IsDigitRun run) (h0 : NoLeadingZero run) :
    dec (decimal run) = run := by
  rw [isDigitRun_iff] at hd
  rw [dec, decReversed_decimal hd.2 hd.1 h0 _ (lt_pow_log2 _) (by omega), List.reverse_reverse]

theorem serialise_eq (m : MotionRequest) :
    serialise m = motionText m.action (dec m.steps) m.direction (dec m.speedFactor) := by
  simp [serialise, motionText, bitChar]

end Sys2Proof.Machine
end

