-- ==== Sys2Proof/Laws/State.lean ====
section
/-! SUPPORT. Each field after each named update of the state. -/

namespace Sys2Proof.Machine

/-! ## `enqueue` -/

@[simp] theorem enqueue_tl (w : PulseWord) (s : State) :
    (enqueue w s).tl = s.tl := rfl
@[simp] theorem enqueue_cur (w : PulseWord) (s : State) :
    (enqueue w s).cur = s.cur := rfl
@[simp] theorem enqueue_cst (w : PulseWord) (s : State) :
    (enqueue w s).cst = s.cst := rfl
@[simp] theorem enqueue_mode (w : PulseWord) (s : State) :
    (enqueue w s).mode = s.mode := rfl
@[simp] theorem enqueue_channelCount (w : PulseWord) (s : State) :
    (enqueue w s).channelCount = s.channelCount := rfl
@[simp] theorem enqueue_est (w : PulseWord) (s : State) :
    (enqueue w s).est = s.est := rfl
@[simp] theorem enqueue_fault (w : PulseWord) (s : State) :
    (enqueue w s).fault = s.fault := rfl
@[simp] theorem enqueue_faultInfo (w : PulseWord) (s : State) :
    (enqueue w s).faultInfo = s.faultInfo := rfl
@[simp] theorem enqueue_safeShutdown (w : PulseWord) (s : State) :
    (enqueue w s).safeShutdown = s.safeShutdown := rfl
@[simp] theorem enqueue_exitStatus (w : PulseWord) (s : State) :
    (enqueue w s).exitStatus = s.exitStatus := rfl
@[simp] theorem enqueue_q (w : PulseWord) (s : State) :
    (enqueue w s).q = s.q ++ [w] := rfl
@[simp] theorem enqueue_pb (w : PulseWord) (s : State) :
    (enqueue w s).pb = s.pb := rfl
@[simp] theorem enqueue_port (w : PulseWord) (s : State) :
    (enqueue w s).port = s.port := rfl
@[simp] theorem enqueue_rst (w : PulseWord) (s : State) :
    (enqueue w s).rst = s.rst := rfl
@[simp] theorem enqueue_trace (w : PulseWord) (s : State) :
    (enqueue w s).trace = s.trace := rfl
@[simp] theorem enqueue_enqn (w : PulseWord) (s : State) :
    (enqueue w s).enqn = s.enqn := rfl
@[simp] theorem enqueue_cfg (w : PulseWord) (s : State) :
    (enqueue w s).cfg = s.cfg := rfl
@[simp] theorem enqueue_inbox (w : PulseWord) (s : State) :
    (enqueue w s).inbox = s.inbox := rfl
@[simp] theorem enqueue_turn (w : PulseWord) (s : State) :
    (enqueue w s).turn = s.turn := rfl
@[simp] theorem enqueue_ret (w : PulseWord) (s : State) :
    (enqueue w s).ret = s.ret := rfl

/-! ## `emit` -/

@[simp] theorem emit_tl (h : HalfWord) (s : State) :
    (emit h s).tl = s.tl := rfl
@[simp] theorem emit_cur (h : HalfWord) (s : State) :
    (emit h s).cur = s.cur := rfl
@[simp] theorem emit_cst (h : HalfWord) (s : State) :
    (emit h s).cst = s.cst := rfl
@[simp] theorem emit_mode (h : HalfWord) (s : State) :
    (emit h s).mode = s.mode := rfl
@[simp] theorem emit_channelCount (h : HalfWord) (s : State) :
    (emit h s).channelCount = s.channelCount := rfl
@[simp] theorem emit_est (h : HalfWord) (s : State) :
    (emit h s).est = s.est := rfl
@[simp] theorem emit_fault (h : HalfWord) (s : State) :
    (emit h s).fault = s.fault := rfl
@[simp] theorem emit_faultInfo (h : HalfWord) (s : State) :
    (emit h s).faultInfo = s.faultInfo := rfl
@[simp] theorem emit_safeShutdown (h : HalfWord) (s : State) :
    (emit h s).safeShutdown = s.safeShutdown := rfl
@[simp] theorem emit_exitStatus (h : HalfWord) (s : State) :
    (emit h s).exitStatus = s.exitStatus := rfl
@[simp] theorem emit_q (h : HalfWord) (s : State) :
    (emit h s).q = s.q := rfl
@[simp] theorem emit_pb (h : HalfWord) (s : State) :
    (emit h s).pb = s.pb := rfl
@[simp] theorem emit_port (h : HalfWord) (s : State) :
    (emit h s).port = h := rfl
@[simp] theorem emit_rst (h : HalfWord) (s : State) :
    (emit h s).rst = s.rst := rfl
@[simp] theorem emit_trace (h : HalfWord) (s : State) :
    (emit h s).trace = s.trace ++ [h] := rfl
@[simp] theorem emit_enqn (h : HalfWord) (s : State) :
    (emit h s).enqn = s.enqn := rfl
@[simp] theorem emit_cfg (h : HalfWord) (s : State) :
    (emit h s).cfg = s.cfg := rfl
@[simp] theorem emit_inbox (h : HalfWord) (s : State) :
    (emit h s).inbox = s.inbox := rfl
@[simp] theorem emit_turn (h : HalfWord) (s : State) :
    (emit h s).turn = s.turn := rfl
@[simp] theorem emit_ret (h : HalfWord) (s : State) :
    (emit h s).ret = s.ret := rfl

/-! ## `raise` -/

@[simp] theorem raise_tl (d : Diagnostic) (s : State) :
    (raise d s).tl = [] := rfl
@[simp] theorem raise_cur (d : Diagnostic) (s : State) :
    (raise d s).cur = zeroCursors := rfl
@[simp] theorem raise_cst (d : Diagnostic) (s : State) :
    (raise d s).cst = .unbuilt := rfl
@[simp] theorem raise_mode (d : Diagnostic) (s : State) :
    (raise d s).mode = s.mode := rfl
@[simp] theorem raise_channelCount (d : Diagnostic) (s : State) :
    (raise d s).channelCount = s.channelCount := rfl
@[simp] theorem raise_est (d : Diagnostic) (s : State) :
    (raise d s).est = .idle := rfl
@[simp] theorem raise_fault (d : Diagnostic) (s : State) :
    (raise d s).fault = d.code := rfl
@[simp] theorem raise_faultInfo (d : Diagnostic) (s : State) :
    (raise d s).faultInfo = d.info := rfl
@[simp] theorem raise_safeShutdown (d : Diagnostic) (s : State) :
    (raise d s).safeShutdown = true := rfl
@[simp] theorem raise_exitStatus (d : Diagnostic) (s : State) :
    (raise d s).exitStatus = faultNumber d.code := rfl
@[simp] theorem raise_q (d : Diagnostic) (s : State) :
    (raise d s).q = [] := rfl
@[simp] theorem raise_pb (d : Diagnostic) (s : State) :
    (raise d s).pb = none := rfl
@[simp] theorem raise_port (d : Diagnostic) (s : State) :
    (raise d s).port = s.port := rfl
@[simp] theorem raise_rst (d : Diagnostic) (s : State) :
    (raise d s).rst = .notReplaying := rfl
@[simp] theorem raise_trace (d : Diagnostic) (s : State) :
    (raise d s).trace = s.trace := rfl
@[simp] theorem raise_enqn (d : Diagnostic) (s : State) :
    (raise d s).enqn = s.enqn := rfl
@[simp] theorem raise_cfg (d : Diagnostic) (s : State) :
    (raise d s).cfg = s.cfg := rfl
@[simp] theorem raise_inbox (d : Diagnostic) (s : State) :
    (raise d s).inbox = s.inbox := rfl
@[simp] theorem raise_turn (d : Diagnostic) (s : State) :
    (raise d s).turn = s.turn := rfl
@[simp] theorem raise_ret (d : Diagnostic) (s : State) :
    (raise d s).ret = s.ret := rfl

/-! ## `State.withFetchWord` -/

@[simp] theorem withFetchWord_tl (s : State) (nbits w : Nat) :
    (s.withFetchWord nbits w).tl = s.tl := rfl
@[simp] theorem withFetchWord_cur (s : State) (nbits w : Nat) :
    (s.withFetchWord nbits w).cur = s.cur := rfl
@[simp] theorem withFetchWord_cst (s : State) (nbits w : Nat) :
    (s.withFetchWord nbits w).cst = .building := rfl
@[simp] theorem withFetchWord_mode (s : State) (nbits w : Nat) :
    (s.withFetchWord nbits w).mode = s.mode := rfl
@[simp] theorem withFetchWord_channelCount (s : State) (nbits w : Nat) :
    (s.withFetchWord nbits w).channelCount = s.channelCount := rfl
@[simp] theorem withFetchWord_est (s : State) (nbits w : Nat) :
    (s.withFetchWord nbits w).est = s.est := rfl
@[simp] theorem withFetchWord_fault (s : State) (nbits w : Nat) :
    (s.withFetchWord nbits w).fault = s.fault := rfl
@[simp] theorem withFetchWord_faultInfo (s : State) (nbits w : Nat) :
    (s.withFetchWord nbits w).faultInfo = s.faultInfo := rfl
@[simp] theorem withFetchWord_safeShutdown (s : State) (nbits w : Nat) :
    (s.withFetchWord nbits w).safeShutdown = s.safeShutdown := rfl
@[simp] theorem withFetchWord_exitStatus (s : State) (nbits w : Nat) :
    (s.withFetchWord nbits w).exitStatus = s.exitStatus := rfl
@[simp] theorem withFetchWord_q (s : State) (nbits w : Nat) :
    (s.withFetchWord nbits w).q = s.q := rfl
@[simp] theorem withFetchWord_pb (s : State) (nbits w : Nat) :
    (s.withFetchWord nbits w).pb = s.pb := rfl
@[simp] theorem withFetchWord_port (s : State) (nbits w : Nat) :
    (s.withFetchWord nbits w).port = s.port := rfl
@[simp] theorem withFetchWord_rst (s : State) (nbits w : Nat) :
    (s.withFetchWord nbits w).rst = s.rst := rfl
@[simp] theorem withFetchWord_trace (s : State) (nbits w : Nat) :
    (s.withFetchWord nbits w).trace = s.trace := rfl
@[simp] theorem withFetchWord_enqn (s : State) (nbits w : Nat) :
    (s.withFetchWord nbits w).enqn = s.enqn := rfl
@[simp] theorem withFetchWord_cfg (s : State) (nbits w : Nat) :
    (s.withFetchWord nbits w).cfg = s.cfg := rfl
@[simp] theorem withFetchWord_inbox (s : State) (nbits w : Nat) :
    (s.withFetchWord nbits w).inbox = wordPacket nbits w :: s.inbox := rfl
@[simp] theorem withFetchWord_turn (s : State) (nbits w : Nat) :
    (s.withFetchWord nbits w).turn = s.turn := rfl
@[simp] theorem withFetchWord_ret (s : State) (nbits w : Nat) :
    (s.withFetchWord nbits w).ret = s.ret := rfl

end Sys2Proof.Machine
end

