-- ==== Sys2Proof/Laws/Timeline.lean ====
section
/-! SUPPORT. What each operation on the Timeline can do, and that each keeps its words well-formed. -/

namespace Sys2Proof.Machine

/-! ## Lengths -/

@[simp] theorem grow_length (n : Nat) (tl : List PulseWord) :
    (grow n tl).length = max tl.length n := by
  simp [grow]; omega

@[simp] theorem memOr_length (v : PulseWord) (tl : List PulseWord) (t : Nat) :
    (memOr v tl t).length = tl.length := by
  unfold memOr memRead memWrite
  cases tl[t]? <;> simp

@[simp] theorem orSlots_length (v : PulseWord) (slots : List Nat) (tl : List PulseWord) :
    (orSlots v slots tl).length = tl.length := by
  unfold orSlots
  induction slots generalizing tl with
  | nil => rfl
  | cons t rest ih => simp [ih]

@[simp] theorem mergedTimeline_length (c : Channel) (start : Nat) (r : MotionRequest)
    (tl : List PulseWord) :
    (mergedTimeline c start r tl).length = max tl.length (start + expandedSteps r) := by
  simp [mergedTimeline]

/-! ## Contents -/

theorem slot_of_length_le {tl : List PulseWord} {t : Nat} (h : tl.length ≤ t) : slot tl t = 0#32 := by
  simp [slot, List.getD_eq_getElem?_getD, List.getElem?_eq_none h]

theorem slot_eq_of_getElem? {tl : List PulseWord} {t : Nat} {w : PulseWord} (h : tl[t]? = some w) :
    slot tl t = w := by
  simp [slot, List.getD_eq_getElem?_getD, h]

theorem getElem?_eq_slot {tl : List PulseWord} {t : Nat} (h : t < tl.length) :
    tl[t]? = some (slot tl t) := by
  simp [slot, h]

@[simp] theorem slot_grow (n : Nat) (tl : List PulseWord) (t : Nat) :
    slot (grow n tl) t = slot tl t := by
  by_cases h : t < tl.length
  · simp [slot, grow, List.getD_eq_getElem?_getD, List.getElem?_append_left h]
  · rw [slot_of_length_le (Nat.le_of_not_lt h)]
    simp only [slot, grow, List.getD_eq_getElem?_getD,
      List.getElem?_append_right (Nat.le_of_not_lt h), List.getElem?_replicate]
    split <;> rfl

theorem slot_memOr (v : PulseWord) (tl : List PulseWord) (t u : Nat) (ht : t < tl.length) :
    slot (memOr v tl t) u = if u = t then slot tl u ||| v else slot tl u := by
  rw [memOr, memRead, getElem?_eq_slot ht]
  by_cases h : u = t
  · subst h; simp [slot, memWrite, ht]
  · simp [slot, memWrite, h, List.getElem?_set_ne (Ne.symm h)]

theorem slot_orSlots (v : PulseWord) (slots : List Nat) (tl : List PulseWord) (u : Nat)
    (hin : ∀ t ∈ slots, t < tl.length) :
    slot (orSlots v slots tl) u = if u ∈ slots then slot tl u ||| v else slot tl u := by
  induction slots generalizing tl with
  | nil => simp [orSlots]
  | cons t rest ih =>
    have ht : t < tl.length := hin t (by simp)
    have hrest : ∀ x ∈ rest, x < (memOr v tl t).length := fun x hx => by
      simpa using hin x (by simp [hx])
    have := ih (memOr v tl t) hrest
    simp only [orSlots, List.foldl_cons] at this ⊢
    rw [this, slot_memOr v tl t u ht]
    by_cases h1 : u = t <;> by_cases h2 : u ∈ rest <;> simp [h1, h2, BitVec.or_assoc]

theorem mem_baselineSlots (start : Nat) (r : MotionRequest) (u : Nat) :
    u ∈ baselineSlots start r ↔ start ≤ u ∧ u < start + expandedSteps r := by
  simp only [baselineSlots, List.mem_map, List.mem_range]
  constructor
  · rintro ⟨i, hi, rfl⟩; omega
  · rintro ⟨h1, h2⟩; exact ⟨u - start, by omega, by omega⟩

theorem mem_actionSlots (start : Nat) (r : MotionRequest) (u : Nat) :
    u ∈ actionSlots start r ↔
      (start ≤ u ∧ u < start + expandedSteps r) ∧ (u - start) % stride r = 0 := by
  have hk : 0 < stride r := by simp [stride]
  simp only [actionSlots, List.mem_map, List.mem_range]
  constructor
  · rintro ⟨i, hi, rfl⟩
    have : i * stride r < r.steps * stride r := Nat.mul_lt_mul_of_pos_right hi hk
    simp only [expandedSteps, Nat.add_sub_cancel_left, Nat.mul_mod_left, and_true]
    omega
  · rintro ⟨⟨h1, h2⟩, h3⟩
    obtain ⟨i, hi⟩ := Nat.dvd_of_mod_eq_zero h3
    refine ⟨i, ?_, by rw [Nat.mul_comm]; omega⟩
    have : i * stride r < r.steps * stride r := by
      rw [Nat.mul_comm i]; simp only [expandedSteps] at h2; omega
    exact lt_of_mul_lt_mul_right this (Nat.zero_le _)

/-- The baseline is contained in the action word of the same direction. -/
theorem baseline_or_action (c : Channel) (d a : Bool) :
    pulseFor c d false ||| pulseFor c d a = pulseFor c d a := by
  revert c d a; decide

/-- What one request does to every slot (R154): its lane's word is ORed into the slots of its range. -/
theorem slot_mergedTimeline (c : Channel) (start : Nat) (r : MotionRequest) (tl : List PulseWord)
    (u : Nat) :
    slot (mergedTimeline c start r tl) u = slot tl u |||
      (if start ≤ u ∧ u < start + expandedSteps r
        then pulseFor c r.direction (r.action && decide ((u - start) % stride r = 0)) else 0#32) := by
  unfold mergedTimeline
  rw [slot_orSlots, slot_orSlots, slot_grow]
  · simp only [mem_baselineSlots, mem_actionSlots]
    by_cases h : start ≤ u ∧ u < start + expandedSteps r
    · by_cases h3 : (u - start) % stride r = 0
      · simp [h, h3, BitVec.or_assoc, baseline_or_action]
      · simp [h, h3]
    · simp [h]
  · intro t ht; rw [mem_baselineSlots] at ht; simp; omega
  · intro t ht; rw [mem_actionSlots] at ht; simp; omega

/-! ## Well-formed words (R106) -/

theorem wordWellFormed_zero : wordWellFormed 0#32 = true := by decide

theorem wordWellFormed_pulseFor (c : Channel) (d a : Bool) : wordWellFormed (pulseFor c d a) = true := by
  revert c d a; decide

theorem wordWellFormed_or {v w : PulseWord} (hv : wordWellFormed v = true)
    (hw : wordWellFormed w = true) : wordWellFormed (v ||| w) = true := by
  simp only [wordWellFormed, decide_eq_true_eq, phaseA, phaseB, BitVec.getLsbD_extractLsb',
    BitVec.getLsbD_or] at *
  intro c
  have h1 := hv c
  have h2 := hw c
  have hd : dirBit c < 16 := by simp [dirBit]; omega
  have hs : stepBit c < 16 := by simp [stepBit]; omega
  simp only [hd, hs, decide_true, Bool.true_and] at *
  exact ⟨by rw [h1.1, h2.1]; rfl, by rw [h1.2, h2.2]⟩

theorem Memory.wf_iff (tl : List PulseWord) :
    Memory.wf tl = true ↔ ∀ w ∈ tl, wordWellFormed w = true := by
  simp [Memory.wf]

theorem Memory.wf_grow {tl : List PulseWord} (n : Nat) (h : Memory.wf tl = true) :
    Memory.wf (grow n tl) = true := by
  simp only [Memory.wf_iff, grow, List.mem_append, List.mem_replicate] at *
  rintro w (hw | ⟨-, rfl⟩)
  · exact h w hw
  · exact wordWellFormed_zero

theorem Memory.wf_write {tl : List PulseWord} {v : PulseWord} (t : Nat) (h : Memory.wf tl = true)
    (hv : wordWellFormed v = true) : Memory.wf (memWrite tl t v) = true := by
  simp only [Memory.wf_iff, memWrite] at *
  intro w hw
  rcases List.mem_or_eq_of_mem_set hw with hw | rfl
  · exact h w hw
  · exact hv

theorem Memory.wf_or {tl : List PulseWord} {v : PulseWord} (t : Nat) (h : Memory.wf tl = true)
    (hv : wordWellFormed v = true) : Memory.wf (memOr v tl t) = true := by
  unfold memOr memRead
  split
  · next w hw =>
    have hmem : w ∈ tl := List.mem_of_getElem? hw
    exact Memory.wf_write t h (wordWellFormed_or ((Memory.wf_iff tl).1 h w hmem) hv)
  · exact h

theorem Memory.wf_orSlots {v : PulseWord} (hv : wordWellFormed v = true) (slots : List Nat)
    {tl : List PulseWord} (h : Memory.wf tl = true) : Memory.wf (orSlots v slots tl) = true := by
  unfold orSlots
  induction slots generalizing tl with
  | nil => exact h
  | cons t rest ih => exact ih (Memory.wf_or t h hv)

theorem Memory.wf_mergedTimeline (c : Channel) (start : Nat) (r : MotionRequest)
    {tl : List PulseWord} (h : Memory.wf tl = true) :
    Memory.wf (mergedTimeline c start r tl) = true :=
  Memory.wf_orSlots (wordWellFormed_pulseFor _ _ _) _
    (Memory.wf_orSlots (wordWellFormed_pulseFor _ _ _) _ (Memory.wf_grow _ h))

theorem Memory.wf_reset : Memory.wf State.reset.tl = true := rfl

/-- Two Timelines of one length with the same slots are equal. -/
theorem timeline_ext {tl tl' : List PulseWord} (hlen : tl.length = tl'.length)
    (h : ∀ t, slot tl t = slot tl' t) : tl = tl' := by
  apply List.ext_getElem hlen
  intro i h1 h2
  have := h i
  simpa [slot, h1, h2] using this

end Sys2Proof.Machine
end

