-- ==== Sys2Proof/Laws/Compiler.lean ====
section
/-! SUPPORT. What the merge and the validation can do: one lemma for each shared operation. -/

namespace Sys2Proof.Machine

/-! ## Capacity -/

theorem withinCapacity_iff (s : State) (n : Nat) : withinCapacity s n = true ↔ Fits s n := by
  unfold withinCapacity Fits
  cases s.cfg.timelineCapacity <;> simp

theorem Fits.mono {s : State} {m n : Nat} (h : Fits s n) (hm : m ≤ n) : Fits s m :=
  fun c hc => Nat.le_trans hm (h c hc)

theorem Fits.congr {s t : State} {n : Nat} (h : Fits s n) (hcfg : t.cfg = s.cfg) : Fits t n :=
  fun c hc => h c (hcfg ▸ hc)

/-! ## One request -/

theorem mergeRequest_of_fits {c : Channel} {r : MotionRequest} {s : State} (index : Nat)
    (h : Fits s (cursor s c + expandedSteps r)) :
    mergeRequest c index r s = .ok { s with
      tl := mergedTimeline c (cursor s c) r s.tl
      cur := s.cur.set c (cursor s c + expandedSteps r) } := by
  simp [mergeRequest, (withinCapacity_iff s _).2 h]

theorem mergeRequest_of_not_fits {c : Channel} {r : MotionRequest} {s : State} (index : Nat)
    (h : ¬ Fits s (cursor s c + expandedSteps r)) :
    mergeRequest c index r s = .error (capacityDiagnostic c index) := by
  simp [mergeRequest, (withinCapacity_iff s _).not.2 h]

/-- A request either fits and is merged, or raises CapacityError. -/
theorem mergeRequest_cases (c : Channel) (index : Nat) (r : MotionRequest) (s : State) :
    (Fits s (cursor s c + expandedSteps r) ∧
      mergeRequest c index r s = .ok { s with
        tl := mergedTimeline c (cursor s c) r s.tl
        cur := s.cur.set c (cursor s c + expandedSteps r) }) ∨
    (¬ Fits s (cursor s c + expandedSteps r) ∧
      mergeRequest c index r s = .error (capacityDiagnostic c index)) := by
  by_cases h : Fits s (cursor s c + expandedSteps r)
  · exact .inl ⟨h, mergeRequest_of_fits index h⟩
  · exact .inr ⟨h, mergeRequest_of_not_fits index h⟩

/-! ## The requests of one channel -/

/-- The word that a channel's requests put into slot `o`, counted from where they start. -/
def contribution (c : Channel) : List MotionRequest → Nat → PulseWord
  | [], _ => 0#32
  | r :: rest, o =>
    if o < expandedSteps r then
      pulseFor c r.direction (r.action && decide (o % stride r = 0))
    else contribution c rest (o - expandedSteps r)

@[simp] theorem channelLength_nil : channelLength [] = 0 := rfl

@[simp] theorem channelLength_cons (r : MotionRequest) (rest : List MotionRequest) :
    channelLength (r :: rest) = expandedSteps r + channelLength rest := by
  simp [channelLength, expandedSteps, stride]

theorem contribution_of_length_le (c : Channel) {requests : List MotionRequest} {o : Nat}
    (h : channelLength requests ≤ o) : contribution c requests o = 0#32 := by
  induction requests generalizing o with
  | nil => rfl
  | cons r rest ih =>
    rw [channelLength_cons] at h
    rw [contribution, if_neg (by omega), ih (by omega)]

theorem contribution_of_request (c : Channel) {requests : List MotionRequest} {j : Nat}
    {r : MotionRequest} (hj : requests[j]? = some r) {o : Nat} (h1 : requestStart requests j ≤ o)
    (h2 : o < requestStart requests j + expandedSteps r) :
    contribution c requests o =
      pulseFor c r.direction (r.action && decide ((o - requestStart requests j) % stride r = 0)) := by
  induction requests generalizing j o with
  | nil => simp at hj
  | cons r' rest ih =>
    cases j with
    | zero =>
      simp only [List.getElem?_cons_zero, Option.some.injEq] at hj
      subst hj
      simp only [requestStart, List.take_zero, channelLength_nil, Nat.zero_add] at h2
      simp [contribution, h2, requestStart]
    | succ j =>
      have hs : requestStart (r' :: rest) (j + 1) = expandedSteps r' + requestStart rest j := by
        simp [requestStart]
      rw [hs] at h1 h2 ⊢
      rw [contribution, if_neg (by omega), ih (by simpa using hj) (by omega) (by omega)]
      rw [Nat.sub_sub]

theorem cursor_set (s : State) (c : Channel) (n : Nat) (tl : List PulseWord) :
    cursor { s with tl := tl, cur := s.cur.set c n } c = n := by
  simp [cursor]

/-- Requests that fit are merged one after another: the cursor moves by their length and each slot takes their word. -/
theorem mergeRequests_of_fits (c : Channel) (index : Nat) (requests : List MotionRequest) (s : State)
    (h : Fits s (cursor s c + channelLength requests)) :
    ∃ tl, mergeRequests c index requests s = .ok { s with
        tl := tl, cur := s.cur.set c (cursor s c + channelLength requests) } ∧
      tl.length = (if requests = [] then s.tl.length
        else max s.tl.length (cursor s c + channelLength requests)) ∧
      ∀ u, slot tl u = slot s.tl u |||
        (if cursor s c ≤ u then contribution c requests (u - cursor s c) else 0#32) := by
  induction requests generalizing index s with
  | nil =>
    refine ⟨s.tl, ?_, by simp, by simp [contribution]⟩
    simp only [mergeRequests, channelLength_nil, Nat.add_zero, cursor]
    rw [show s.cur.set c s.cur[c] = s.cur from Vector.set_getElem_self _]
  | cons r rest ih =>
    rw [channelLength_cons] at h ⊢
    have h1 : Fits s (cursor s c + expandedSteps r) := h.mono (by omega)
    simp only [mergeRequests, mergeRequest_of_fits index h1]
    obtain ⟨tl, hok, hlen, hslot⟩ := ih (index + 1)
      { s with tl := mergedTimeline c (cursor s c) r s.tl
               cur := s.cur.set c (cursor s c + expandedSteps r) }
      (by rw [cursor_set, Nat.add_assoc]; exact h)
    rw [cursor_set] at hok hlen hslot
    refine ⟨tl, ?_, ?_, ?_⟩
    · rw [hok]; simp [Nat.add_assoc]
    · rw [hlen]
      by_cases hr : rest = []
      · subst hr; simp
      · simp [hr]; omega
    · intro u
      rw [hslot u, slot_mergedTimeline, BitVec.or_assoc]
      congr 1
      by_cases hu : cursor s c ≤ u
      · by_cases hu2 : u < cursor s c + expandedSteps r
        · have h3 : ¬ cursor s c + expandedSteps r ≤ u := by omega
          have h4 : u - cursor s c < expandedSteps r := by omega
          simp [hu, hu2, h3, h4, contribution]
        · have h3 : cursor s c + expandedSteps r ≤ u := by omega
          have h4 : ¬ u - cursor s c < expandedSteps r := by omega
          simp [hu, hu2, h3, h4, contribution, Nat.sub_sub]
      · have h3 : ¬ cursor s c + expandedSteps r ≤ u := by omega
        simp [hu, h3]

/-- The first request that does not fit raises CapacityError with its position. -/
theorem mergeRequests_of_overflow (c : Channel) (index : Nat) {requests : List MotionRequest} {j : Nat}
    {s : State} (hj : j < requests.length) (hfit : j = 0 ∨ Fits s (cursor s c + requestStart requests j))
    (hover : ¬ Fits s (cursor s c + requestStart requests (j + 1))) :
    mergeRequests c index requests s = .error (capacityDiagnostic c (index + j)) := by
  induction requests generalizing index j s with
  | nil => simp at hj
  | cons r rest ih =>
    cases j with
    | zero =>
      simp only [requestStart, List.take_succ_cons, List.take_zero, channelLength_cons,
        channelLength_nil, Nat.add_zero] at hover
      simp [mergeRequests, mergeRequest_of_not_fits index hover]
    | succ j =>
      have hs : ∀ k, requestStart (r :: rest) (k + 1) = expandedSteps r + requestStart rest k := by
        intro k; simp [requestStart]
      have hfit' : Fits s (cursor s c + (expandedSteps r + requestStart rest j)) := by
        rcases hfit with h | h
        · omega
        · rwa [hs] at h
      rw [hs] at hover
      have h1 : Fits s (cursor s c + expandedSteps r) := hfit'.mono (by omega)
      simp only [mergeRequests, mergeRequest_of_fits index h1]
      rw [ih (index + 1) (by simpa using hj)
        (by rw [cursor_set, Nat.add_assoc]; exact Or.inr hfit')
        (by rw [cursor_set, Nat.add_assoc]; exact hover)]
      congr 2; omega

/-- If requests do not all fit, one of them is the first that does not. -/
theorem exists_overflow {c : Channel} {requests : List MotionRequest} {s : State}
    (hne : requests ≠ []) (h : ¬ Fits s (cursor s c + channelLength requests)) :
    ∃ j, j < requests.length ∧ (j = 0 ∨ Fits s (cursor s c + requestStart requests j)) ∧
      ¬ Fits s (cursor s c + requestStart requests (j + 1)) := by
  classical
  have hex : ∃ j, ¬ Fits s (cursor s c + requestStart requests (j + 1)) :=
    ⟨requests.length, by simpa [requestStart, List.take_of_length_le] using h⟩
  refine ⟨Nat.find hex, ?_, ?_, Nat.find_spec hex⟩
  · have hlen : 0 < requests.length := List.length_pos_iff.2 hne
    have hle : Nat.find hex ≤ requests.length - 1 := Nat.find_min' hex (by
      rw [Nat.sub_add_cancel hlen]; simpa [requestStart] using h)
    omega
  · rcases Nat.eq_zero_or_pos (Nat.find hex) with h0 | h0
    · exact .inl h0
    · right
      have := Nat.find_min hex (m := Nat.find hex - 1) (by omega)
      rw [Nat.sub_add_cancel h0] at this
      exact not_not.1 this

/-- The merge of a channel's requests: all of them, or CapacityError at one of them. -/
theorem mergeRequests_cases (c : Channel) (index : Nat) (requests : List MotionRequest) (s : State) :
    (∃ t, mergeRequests c index requests s = .ok t ∧
      (requests = [] ∨ Fits s (cursor s c + channelLength requests))) ∨
    (∃ j, mergeRequests c index requests s = .error (capacityDiagnostic c (index + j))) := by
  by_cases hne : requests = []
  · subst hne; exact .inl ⟨s, rfl, .inl rfl⟩
  · by_cases h : Fits s (cursor s c + channelLength requests)
    · obtain ⟨tl, hok, -⟩ := mergeRequests_of_fits c index requests s h
      exact .inl ⟨_, hok, .inr h⟩
    · obtain ⟨j, hj, hfit, hover⟩ := exists_overflow hne h
      exact .inr ⟨j, mergeRequests_of_overflow c index hj hfit hover⟩

/-! ## What a merge leaves alone -/

/-- A merge writes the Timeline and the cursors and nothing else. -/
theorem mergeRequests_frame {c : Channel} {index : Nat} {requests : List MotionRequest} {s t : State}
    (h : mergeRequests c index requests s = .ok t) : t = { s with tl := t.tl, cur := t.cur } := by
  induction requests generalizing index s with
  | nil => simp only [mergeRequests, Except.ok.injEq] at h; subst h; rfl
  | cons r rest ih =>
    rw [mergeRequests] at h
    rcases mergeRequest_cases c index r s with ⟨-, he⟩ | ⟨-, he⟩ <;> rw [he] at h
    · have h2 := ih h
      exact h2
    · cases h

/-- A merge keeps the words of the Timeline well-formed. -/
theorem mergeRequests_wf {c : Channel} {index : Nat} {requests : List MotionRequest} {s t : State}
    (h : mergeRequests c index requests s = .ok t) (hwf : Memory.wf s.tl = true) :
    Memory.wf t.tl = true := by
  induction requests generalizing index s with
  | nil => simp only [mergeRequests, Except.ok.injEq] at h; subst h; exact hwf
  | cons r rest ih =>
    rw [mergeRequests] at h
    rcases mergeRequest_cases c index r s with ⟨-, he⟩ | ⟨-, he⟩ <;> rw [he] at h
    · exact ih h (Memory.wf_mergedTimeline c _ r hwf)
    · cases h

theorem mergeChannels_frame {lists : List (Channel × List MotionRequest)} {s t : State}
    (h : mergeChannels lists s = .ok t) : t = { s with tl := t.tl, cur := t.cur } := by
  induction lists generalizing s with
  | nil => simp only [mergeChannels, Except.ok.injEq] at h; subst h; rfl
  | cons e rest ih =>
    obtain ⟨c, requests⟩ := e
    rw [mergeChannels] at h
    split at h
    · next u hu =>
      have h1 := mergeRequests_frame hu
      have h2 := ih h
      rw [h2, h1]
    · cases h

theorem mergeChannels_wf {lists : List (Channel × List MotionRequest)} {s t : State}
    (h : mergeChannels lists s = .ok t) (hwf : Memory.wf s.tl = true) : Memory.wf t.tl = true := by
  induction lists generalizing s with
  | nil => simp only [mergeChannels, Except.ok.injEq] at h; subst h; exact hwf
  | cons e rest ih =>
    obtain ⟨c, requests⟩ := e
    rw [mergeChannels] at h
    split at h
    · next u hu => exact ih h (mergeRequests_wf hu hwf)
    · cases h

/-! ## The channels of a plan -/

/-- The requests that a list of channels holds under one of them. -/
def requestsUnder (lists : List (Channel × List MotionRequest)) (c : Channel) : List MotionRequest :=
  match lists.find? fun e => e.1 = c with
  | some e => e.2
  | none => []

@[simp] theorem requestsUnder_nil (c : Channel) : requestsUnder [] c = [] := rfl

theorem requestsUnder_cons (e : Channel × List MotionRequest)
    (rest : List (Channel × List MotionRequest)) (c : Channel) :
    requestsUnder (e :: rest) c = if e.1 = c then e.2 else requestsUnder rest c := by
  by_cases h : e.1 = c <;> simp [requestsUnder, h]

theorem requestsUnder_of_not_mem {lists : List (Channel × List MotionRequest)} {c : Channel}
    (h : c ∉ lists.map Prod.fst) : requestsUnder lists c = [] := by
  induction lists with
  | nil => rfl
  | cons e rest ih =>
    simp only [List.map_cons, List.mem_cons, not_or] at h
    rw [requestsUnder_cons, if_neg (Ne.symm h.1), ih h.2]

theorem requestsUnder_of_mem {lists : List (Channel × List MotionRequest)}
    (hnd : (lists.map Prod.fst).Nodup) {e : Channel × List MotionRequest} (he : e ∈ lists) :
    requestsUnder lists e.1 = e.2 := by
  induction lists with
  | nil => cases he
  | cons f rest ih =>
    simp only [List.map_cons, List.nodup_cons] at hnd
    rw [requestsUnder_cons]
    rcases List.mem_cons.1 he with rfl | he
    · simp
    · have : f.1 ≠ e.1 := fun h => hnd.1 (h ▸ List.mem_map_of_mem he)
      rw [if_neg this, ih hnd.2 he]

theorem cursor_set_ne {s : State} {c c' : Channel} (h : c' ≠ c) (n : Nat) (tl : List PulseWord) :
    cursor { s with tl := tl, cur := s.cur.set c n } c' = cursor s c' := by
  have : c.val ≠ c'.val := fun hv => h (Fin.ext hv.symm)
  simp [cursor, this]

theorem lane_zero (c : Channel) : lane c 0#32 = (false, false, false, false) := by
  revert c; decide

theorem lane_pulseFor (c : Channel) (d a : Bool) : lane c (pulseFor c d a) = (d, a, d, false) := by
  revert c d a; decide

theorem lane_pulseFor_ne {c c' : Channel} (h : c' ≠ c) (d a : Bool) :
    lane c' (pulseFor c d a) = (false, false, false, false) := by
  revert c c' d a; decide

/-- A contribution has no bit in another channel's lane. -/
theorem lane_contribution_ne {c c' : Channel} (h : c' ≠ c) (requests : List MotionRequest) (o : Nat) :
    lane c' (contribution c requests o) = (false, false, false, false) := by
  induction requests generalizing o with
  | nil => exact lane_zero c'
  | cons r rest ih =>
    rw [contribution]
    split
    · exact lane_pulseFor_ne h _ _
    · exact ih _

theorem lane_or (c : Channel) (v w : PulseWord) : lane c (v ||| w) =
    (dirA c v || dirA c w, stepA c v || stepA c w, dirB c v || dirB c w, stepB c v || stepB c w) := by
  simp [lane, dirA, stepA, dirB, stepB]

theorem lane_or_of_clear {c : Channel} {v w : PulseWord} (h : lane c w = (false, false, false, false)) :
    lane c (v ||| w) = lane c v := by
  simp only [lane, Prod.mk.injEq] at h
  rw [lane_or, h.1, h.2.1, h.2.2.1, h.2.2.2]; simp [lane]

theorem lane_or_congr {c : Channel} {v v' : PulseWord} (w : PulseWord) (h : lane c v = lane c v') :
    lane c (v ||| w) = lane c (v' ||| w) := by
  simp only [lane, Prod.mk.injEq] at h
  rw [lane_or, lane_or, h.1, h.2.1, h.2.2.1, h.2.2.2]

/-- Channels that all fit are merged: each cursor moves by its channel's length, each lane takes its channel's bits, and
the Timeline reaches as far as the longest of them. -/
theorem mergeChannels_of_fits {lists : List (Channel × List MotionRequest)} {s : State}
    (hnd : (lists.map Prod.fst).Nodup)
    (hfit : ∀ e ∈ lists, Fits s (cursor s e.1 + channelLength e.2)) :
    ∃ t, mergeChannels lists s = .ok t ∧
      (∀ c, cursor t c = cursor s c + channelLength (requestsUnder lists c)) ∧
      s.tl.length ≤ t.tl.length ∧
      (∀ e ∈ lists, e.2 ≠ [] → cursor s e.1 + channelLength e.2 ≤ t.tl.length) ∧
      (t.tl.length = s.tl.length ∨
        ∃ e ∈ lists, t.tl.length = cursor s e.1 + channelLength e.2) ∧
      ∀ c u, lane c (slot t.tl u) = lane c (slot s.tl u |||
        (if cursor s c ≤ u then contribution c (requestsUnder lists c) (u - cursor s c) else 0#32)) := by
  induction lists generalizing s with
  | nil => exact ⟨s, rfl, by simp, le_refl _, by simp, .inl rfl, by simp [contribution]⟩
  | cons e rest ih =>
    obtain ⟨c, requests⟩ := e
    simp only [List.map_cons, List.nodup_cons] at hnd
    obtain ⟨tl, hok, hlen, hslot⟩ := mergeRequests_of_fits c 0 requests s (hfit (c, requests) (by simp))
    have hne : ∀ e ∈ rest, e.1 ≠ c := fun e he h => hnd.1 (h ▸ List.mem_map_of_mem he)
    obtain ⟨t, hok2, hcur, hle, hreach, hlen2, hlane⟩ := ih
      (s := { s with tl := tl, cur := s.cur.set c (cursor s c + channelLength requests) }) hnd.2
      (fun e he => by
        rw [cursor_set_ne (hne e he)]
        exact hfit e (by simp [he]))
    have hle1 : s.tl.length ≤ tl.length := by rw [hlen]; split <;> omega
    refine ⟨t, by simp only [mergeChannels, hok, hok2], ?_, hle1.trans hle, ?_, ?_, ?_⟩
    · intro c'
      rw [hcur, requestsUnder_cons]
      by_cases h : c = c'
      · subst h
        rw [cursor_set, requestsUnder_of_not_mem hnd.1]; simp
      · rw [cursor_set_ne (Ne.symm h), if_neg h]
    · intro e he hne'
      rcases List.mem_cons.1 he with rfl | he
      · refine le_trans ?_ hle
        rw [hlen, if_neg hne']; exact le_max_right _ _
      · have := hreach e he hne'
        rwa [cursor_set_ne (hne e he)] at this
    · rcases hlen2 with h | ⟨e, he, h⟩
      · simp only at h
        rw [h, hlen]
        split
        · exact .inl rfl
        · rcases max_choice s.tl.length (cursor s c + channelLength requests) with hm | hm
          · exact .inl hm
          · exact .inr ⟨(c, requests), by simp, hm⟩
      · rw [cursor_set_ne (hne e he)] at h
        exact .inr ⟨e, by simp [he], h⟩
    · intro c' u
      rw [hlane, requestsUnder_cons]
      by_cases h : c = c'
      · subst h
        rw [cursor_set, requestsUnder_of_not_mem hnd.1]
        simp only [contribution, ite_self, BitVec.or_zero, if_true]
        rw [hslot]
      · rw [cursor_set_ne (Ne.symm h), if_neg h]
        apply lane_or_congr
        simp only
        rw [hslot]
        apply lane_or_of_clear
        split
        · exact lane_contribution_ne (Ne.symm h) _ _
        · exact lane_zero c'

/-- If channels are merged, each that holds a request fits. -/
theorem fits_of_mergeChannels {lists : List (Channel × List MotionRequest)} {s t : State}
    (hnd : (lists.map Prod.fst).Nodup) (h : mergeChannels lists s = .ok t) :
    ∀ e ∈ lists, e.2 = [] ∨ Fits s (cursor s e.1 + channelLength e.2) := by
  induction lists generalizing s with
  | nil => simp
  | cons e rest ih =>
    obtain ⟨c, requests⟩ := e
    simp only [List.map_cons, List.nodup_cons] at hnd
    have hne : ∀ e ∈ rest, e.1 ≠ c := fun e he h => hnd.1 (h ▸ List.mem_map_of_mem he)
    rw [mergeChannels] at h
    rcases mergeRequests_cases c 0 requests s with ⟨u, hu, hfit⟩ | ⟨j, hj⟩
    · rw [hu] at h
      intro e he
      rcases List.mem_cons.1 he with rfl | he
      · exact hfit
      · refine (ih hnd.2 h e he).imp id fun hf => ?_
        have hcur : cursor u e.1 = cursor s e.1 ∧ u.cfg = s.cfg := by
          by_cases hr : requests = []
          · subst hr; simp only [mergeRequests, Except.ok.injEq] at hu; subst hu; exact ⟨rfl, rfl⟩
          · obtain ⟨tl, hok, -⟩ := mergeRequests_of_fits c 0 requests s (hfit.resolve_left hr)
            rw [hu] at hok
            cases hok
            exact ⟨cursor_set_ne (hne e he) _ _, rfl⟩
        rw [hcur.1] at hf
        exact hf.congr hcur.2.symm
    · rw [hj] at h; cases h

/-! ## Settling -/

/-- What an operation inside COMPILE leaves. -/
theorem buildStep_cases (op : State → Except Diagnostic State) (s : State) :
    (s.cst ≠ .building ∧ buildStep op s = s) ∨
    (s.cst = .building ∧ ∃ t, op s = .ok t ∧ buildStep op s = t) ∨
    (s.cst = .building ∧ ∃ d, op s = .error d ∧ buildStep op s = raise d s) := by
  unfold buildStep insideCompile
  by_cases h : s.cst = .building
  · cases hop : op s with
    | ok t => exact .inr (.inl ⟨h, t, rfl, by simp [h, settle]⟩)
    | error d => exact .inr (.inr ⟨h, d, rfl, by simp [h, settle]⟩)
  · exact .inl ⟨h, by simp [h]⟩

/-- Fatal entry is R229 spelled out. -/
theorem raise_eq_fatalState (d : Diagnostic) (s : State) :
    raise d s = fatalState d.code (faultNumber d.code) d.info s := rfl

/-! ## Plans -/

theorem insertById_perm (e : Nat × List Text) (l : List (Nat × List Text)) :
    (insertById e l).Perm (e :: l) := by
  induction l with
  | nil => exact .refl _
  | cons f rest ih =>
    rw [insertById]
    split
    · exact .refl _
    · exact (ih.cons f).trans (.swap e f rest)

theorem insertById_sorted (e : Nat × List Text) {l : List (Nat × List Text)}
    (h : l.Pairwise fun a b => a.1 ≤ b.1) : (insertById e l).Pairwise fun a b => a.1 ≤ b.1 := by
  induction l with
  | nil => simp [insertById]
  | cons f rest ih =>
    rw [insertById]
    rw [List.pairwise_cons] at h
    split
    · next hle =>
      rw [List.pairwise_cons, List.pairwise_cons]
      refine ⟨?_, h⟩
      intro b hb
      rcases List.mem_cons.1 hb with rfl | hb
      · exact hle
      · exact hle.trans (h.1 b hb)
    · next hle =>
      rw [List.pairwise_cons]
      refine ⟨?_, ih h.2⟩
      intro b hb
      rcases List.mem_cons.1 ((insertById_perm e rest).mem_iff.1 hb) with rfl | hb
      · omega
      · exact h.1 b hb

theorem ascending_perm (p : Plan) : (ascending p).Perm p.channels := by
  unfold ascending
  induction p.channels with
  | nil => exact .refl _
  | cons e rest ih => exact (insertById_perm e _).trans (ih.cons e)

/-- COMPILE takes the channels in ascending id. -/
theorem ascending_sorted (p : Plan) : (ascending p).Pairwise fun a b => a.1 ≤ b.1 := by
  unfold ascending
  induction p.channels with
  | nil => exact .nil
  | cons e rest ih => exact insertById_sorted e ih

theorem mem_ascending (p : Plan) (e : Nat × List Text) : e ∈ ascending p ↔ e ∈ p.channels :=
  (ascending_perm p).mem_iff

/-- The ids of a list that are all in range. -/
theorem checkIds_ok {lists : List (Nat × List Text)} (h : ∀ e ∈ lists, e.1 ≤ 7) :
    ∃ typed, checkIds lists = .ok typed ∧
      typed.map (fun e => (e.1.val, e.2)) = lists := by
  induction lists with
  | nil => exact ⟨[], rfl, rfl⟩
  | cons e rest ih =>
    obtain ⟨id, texts⟩ := e
    obtain ⟨typed, hok, hmap⟩ := ih fun e he => h e (by simp [he])
    have hid : id < 8 := Nat.lt_succ_of_le (h (id, texts) (by simp))
    refine ⟨(⟨id, hid⟩, texts) :: typed, ?_, by simp [hmap]⟩
    simp [checkIds, hid, hok, Except.map]

/-- The first id of a list above 7 is a ConfigError that names it. -/
theorem checkIds_error {before after : List (Nat × List Text)} {id : Nat} {texts : List Text}
    (hbefore : ∀ e ∈ before, e.1 ≤ 7) (hid : 7 < id) :
    checkIds (before ++ (id, texts) :: after) = .error (channelDiagnostic id) := by
  induction before with
  | nil => simp [checkIds, show ¬ id < 8 by omega]
  | cons e rest ih =>
    obtain ⟨k, ks⟩ := e
    have hk : k < 8 := Nat.lt_succ_of_le (hbefore (k, ks) (by simp))
    simp [checkIds, hk, ih fun e he => hbefore e (by simp [he]), Except.map]

theorem parseTexts_ok (c : Channel) (index : Nat) {texts : List Text}
    (h : ∀ text ∈ texts, ∃ r, parse text = some r) :
    parseTexts c index texts = .ok (texts.filterMap parse) := by
  induction texts generalizing index with
  | nil => rfl
  | cons text rest ih =>
    obtain ⟨r, hr⟩ := h text (by simp)
    simp [parseTexts, hr, ih (index + 1) fun t ht => h t (by simp [ht]), Except.map]

theorem parseTexts_error (c : Channel) (index : Nat) {before after : List Text} {text : Text}
    (hbefore : ∀ t ∈ before, ∃ r, parse t = some r) (hbad : parse text = none) :
    parseTexts c index (before ++ text :: after) =
      .error (grammarDiagnostic c.val (index + before.length) text) := by
  induction before generalizing index with
  | nil => simp [parseTexts, hbad]
  | cons t rest ih =>
    obtain ⟨r, hr⟩ := hbefore t (by simp)
    simp [parseTexts, hr, ih (index + 1) fun t ht => hbefore t (by simp [ht]), Except.map,
      Nat.add_assoc, Nat.add_comm 1]

theorem parseLists_ok {lists : List (Channel × List Text)}
    (h : ∀ e ∈ lists, ∀ text ∈ e.2, ∃ r, parse text = some r) :
    parseLists lists = .ok (lists.map fun e => (e.1, e.2.filterMap parse)) := by
  induction lists with
  | nil => rfl
  | cons e rest ih =>
    obtain ⟨c, texts⟩ := e
    simp [parseLists, parseTexts_ok c 0 (h (c, texts) (by simp)),
      ih fun e he => h e (by simp [he]), Except.map]

theorem parseLists_error {before after : List (Channel × List Text)} {c : Channel}
    {good rest : List Text} {text : Text}
    (hbefore : ∀ e ∈ before, ∀ t ∈ e.2, ∃ r, parse t = some r)
    (hgood : ∀ t ∈ good, ∃ r, parse t = some r) (hbad : parse text = none) :
    parseLists (before ++ (c, good ++ text :: rest) :: after) =
      .error (grammarDiagnostic c.val good.length text) := by
  induction before with
  | nil => simp [parseLists, parseTexts_error c 0 hgood hbad]
  | cons e more ih =>
    obtain ⟨k, texts⟩ := e
    simp [parseLists, parseTexts_ok k 0 (hbefore (k, texts) (by simp)),
      ih fun e he => hbefore e (by simp [he]), Except.map]

/-! ## COMPILE -/

theorem validate_of_ok {p : Plan} {mode : ReplayMode} {lists : List (Channel × List Text)}
    {requests : List (Channel × List MotionRequest)} (hcount : p.channels.length ≤ 8)
    (hmode : p.mode = .known mode) (hids : checkIds (ascending p) = .ok lists)
    (hparse : parseLists lists = .ok requests) : validate p = .ok (mode, requests) := by
  simp [validate, checkCount, nchMax, show ¬ 8 < p.channels.length by omega, hmode, checkMode, hids,
    hparse, bind, Except.bind, pure, Except.pure]

theorem ids_of_checkIds {lists : List (Nat × List Text)} {typed : List (Channel × List Text)}
    (h : checkIds lists = .ok typed) : ∀ e ∈ lists, e.1 ≤ 7 := by
  induction lists generalizing typed with
  | nil => simp
  | cons e rest ih =>
    obtain ⟨id, texts⟩ := e
    rw [checkIds] at h
    split at h
    · next hid =>
      cases hr : checkIds rest with
      | error d => rw [hr] at h; cases h
      | ok more =>
        intro e he
        rcases List.mem_cons.1 he with rfl | he
        · exact Nat.le_of_lt_succ hid
        · exact ih hr e he
    · cases h

theorem parse_of_parseTexts {c : Channel} {index : Nat} {texts : List Text}
    {requests : List MotionRequest} (h : parseTexts c index texts = .ok requests) :
    ∀ text ∈ texts, ∃ r, parse text = some r := by
  induction texts generalizing index requests with
  | nil => simp
  | cons text rest ih =>
    rw [parseTexts] at h
    split at h
    · next m hm =>
      cases hr : parseTexts c (index + 1) rest with
      | error d => rw [hr] at h; cases h
      | ok more =>
        intro t ht
        rcases List.mem_cons.1 ht with rfl | ht
        · exact ⟨m, hm⟩
        · exact ih hr t ht
    · cases h

theorem parse_of_parseLists {lists : List (Channel × List Text)}
    {requests : List (Channel × List MotionRequest)} (h : parseLists lists = .ok requests) :
    ∀ e ∈ lists, ∀ text ∈ e.2, ∃ r, parse text = some r := by
  induction lists generalizing requests with
  | nil => simp
  | cons e rest ih =>
    obtain ⟨c, texts⟩ := e
    rw [parseLists] at h
    split at h
    · next rs hrs =>
      cases hr : parseLists rest with
      | error d => rw [hr] at h; cases h
      | ok more =>
        intro e he
        rcases List.mem_cons.1 he with rfl | he
        · exact parse_of_parseTexts hrs
        · exact ih hr e he
    · cases h

/-- A plan that passes the validation has none of the errors that it looks for. -/
theorem validate_ok_inversion {p : Plan} {mode : ReplayMode}
    {requests : List (Channel × List MotionRequest)} (h : validate p = .ok (mode, requests)) :
    p.channels.length ≤ 8 ∧ p.mode = .known mode ∧ (∀ e ∈ p.channels, e.1 ≤ 7) ∧
      (∀ e ∈ p.channels, ∀ text ∈ e.2, ∃ r, parse text = some r) ∧
      ∃ lists, checkIds (ascending p) = .ok lists ∧ parseLists lists = .ok requests := by
  simp only [validate, checkCount, bind, Except.bind, pure, Except.pure] at h
  split at h
  · cases h
  next hcount =>
  split at h
  · cases h
  next m hmode =>
  split at h
  · cases h
  next lists hids =>
  split at h
  · cases h
  next rs hparse =>
  cases h
  have hid7 : ∀ e ∈ p.channels, e.1 ≤ 7 := fun e he =>
    ids_of_checkIds hids e ((mem_ascending p e).2 he)
  refine ⟨?_, ?_, hid7, ?_, lists, hids, hparse⟩
  · by_contra hn
    rw [if_pos (show nchMax < p.channels.length by simp only [nchMax]; omega)] at hcount
    cases hcount
  · cases hp : p.mode with
    | known k => rw [hp] at hmode; cases hmode; rfl
    | other given => rw [hp] at hmode; cases hmode
  · intro e he text ht
    obtain ⟨typed, hok, hmap⟩ := checkIds_ok (lists := ascending p)
      fun x hx => hid7 x ((mem_ascending p x).1 hx)
    rw [hids] at hok
    cases hok
    have hmem := (mem_ascending p e).2 he
    rw [← hmap] at hmem
    obtain ⟨f, hf, rfl⟩ := List.mem_map.1 hmem
    exact parse_of_parseLists hparse f hf text ht

/-! ### Every error of COMPILE has a code -/

theorem mergeRequests_error_code {c : Channel} {index : Nat} {requests : List MotionRequest} {s : State}
    {d : Diagnostic} (h : mergeRequests c index requests s = .error d) : d.code ≠ .noFault := by
  rcases mergeRequests_cases c index requests s with ⟨t, ht, -⟩ | ⟨j, hj⟩
  · rw [ht] at h; cases h
  · rw [hj] at h; cases h; exact FaultCode.noConfusion

theorem mergeChannels_error_code {lists : List (Channel × List MotionRequest)} {s : State}
    {d : Diagnostic} (h : mergeChannels lists s = .error d) : d.code ≠ .noFault := by
  induction lists generalizing s with
  | nil => cases h
  | cons e rest ih =>
    obtain ⟨c, requests⟩ := e
    rw [mergeChannels] at h
    split at h
    · exact ih h
    · next he => cases h; exact mergeRequests_error_code he

theorem checkIds_error_code {lists : List (Nat × List Text)} {d : Diagnostic}
    (h : checkIds lists = .error d) : d.code ≠ .noFault := by
  induction lists with
  | nil => cases h
  | cons e rest ih =>
    obtain ⟨id, texts⟩ := e
    rw [checkIds] at h
    split at h
    · cases hr : checkIds rest with
      | ok more => rw [hr] at h; cases h
      | error d' => rw [hr] at h; cases h; exact ih hr
    · cases h; exact FaultCode.noConfusion

theorem parseTexts_error_code {c : Channel} {index : Nat} {texts : List Text} {d : Diagnostic}
    (h : parseTexts c index texts = .error d) : d.code ≠ .noFault := by
  induction texts generalizing index with
  | nil => cases h
  | cons text rest ih =>
    rw [parseTexts] at h
    split at h
    · cases hr : parseTexts c (index + 1) rest with
      | ok more => rw [hr] at h; cases h
      | error d' => rw [hr] at h; cases h; exact ih hr
    · cases h; exact FaultCode.noConfusion

theorem parseLists_error_code {lists : List (Channel × List Text)} {d : Diagnostic}
    (h : parseLists lists = .error d) : d.code ≠ .noFault := by
  induction lists with
  | nil => cases h
  | cons e rest ih =>
    obtain ⟨c, texts⟩ := e
    rw [parseLists] at h
    split at h
    · cases hr : parseLists rest with
      | ok more => rw [hr] at h; cases h
      | error d' => rw [hr] at h; cases h; exact ih hr
    · next he => cases h; exact parseTexts_error_code he

theorem validate_error_code {p : Plan} {d : Diagnostic} (h : validate p = .error d) :
    d.code ≠ .noFault := by
  simp only [validate, checkCount, bind, Except.bind, pure, Except.pure] at h
  split at h
  · next hc => split at hc <;> cases hc; cases h; decide
  · split at h
    · next hm =>
      cases h
      cases hp : p.mode with
      | known mode => rw [hp] at hm; cases hm
      | other given => rw [hp] at hm; cases hm; exact FaultCode.noConfusion
    · split at h
      · next hi => cases h; exact checkIds_error_code hi
      · split at h
        · next hl => cases h; exact parseLists_error_code hl
        · cases h

theorem compileBody_error_code {p : Plan} {s : State} {d : Diagnostic}
    (h : compileBody p s = .error d) : d.code ≠ .noFault := by
  simp only [compileBody, bind, Except.bind, pure, Except.pure] at h
  split at h
  · next hv => cases h; exact validate_error_code hv
  · split at h
    · next hm => cases h; exact mergeChannels_error_code hm
    · cases h

/-- A COMPILE is refused, or it freezes what its body built, or it ends in fatal entry. -/
theorem execCompile_cases (p : Plan) (s : State) :
    (¬ AcceptsCompile s ∧ execCompile p s = .next s) ∨
    (AcceptsCompile s ∧ ∃ mode requests built, validate p = .ok (mode, requests) ∧
      mergeChannels requests { s with cst := .building, tl := [], cur := zeroCursors } = .ok built ∧
      execCompile p s = .next { built with
        mode := mode, channelCount := p.channels.length, cst := .frozen }) ∨
    (AcceptsCompile s ∧ ∃ d, compileBody p { s with cst := .building } = .error d ∧
      execCompile p s = .next (raise d s)) := by
  have hacc : compileAccepted s = true ↔ AcceptsCompile s := by
    simp [compileAccepted, faulted, replayBusy, AcceptsCompile]
  by_cases h : AcceptsCompile s
  · right
    have h' := hacc.2 h
    cases hv : validate p with
    | error d =>
      refine .inr ⟨h, d, ?_, ?_⟩
      · simp [compileBody, hv, bind, Except.bind]
      · simp [execCompile, h', compileBody, hv, bind, Except.bind, settle]
    | ok vr =>
      obtain ⟨mode, requests⟩ := vr
      cases hm : mergeChannels requests { s with cst := .building, tl := [], cur := zeroCursors } with
      | error d =>
        refine .inr ⟨h, d, ?_, ?_⟩
        · simp [compileBody, hv, hm, bind, Except.bind]
        · simp [execCompile, h', compileBody, hv, hm, bind, Except.bind, settle]
      | ok built =>
        refine .inl ⟨h, mode, requests, built, rfl, hm, ?_⟩
        simp [execCompile, h', compileBody, hv, hm, bind, Except.bind, settle, pure, Except.pure]
  · refine .inl ⟨h, ?_⟩
    simp [execCompile, (hacc.not.2 h)]

end Sys2Proof.Machine
end

