-- ==== Sys2Proof/Laws/Engine.lean ====
section
/-! SUPPORT. What each operation of the engine can do: one case lemma for each. -/

namespace Sys2Proof.Machine

theorem replayAccepted_iff (s : State) :
    replayAccepted s = true ↔ s.fault = .noFault ∧ s.cst = .frozen ∧ s.rst = .notReplaying := by
  simp [replayAccepted, faulted, isFrozen, replayBusy, and_assoc]

/-- REPLAY_ONCE arms the Producer or changes nothing. -/
theorem armOnce_cases (s : State) :
    (replayAccepted s = true ∧ armOnce s = { s with
      enqn := 0, rst := if s.tl.length = 0 then .notReplaying else .replaying .once 0 }) ∨
    (replayAccepted s = false ∧ armOnce s = s) := by
  cases h : replayAccepted s <;> simp [armOnce, h]

/-- REPLAY_LOOP arms the Producer or changes nothing. -/
theorem armLoop_cases (s : State) :
    (replayAccepted s = true ∧ armLoop s = { s with enqn := 0, rst := .replaying .loop 0 }) ∨
    (replayAccepted s = false ∧ armLoop s = s) := by
  cases h : replayAccepted s <;> simp [armLoop, h]

/-- REPLAY is one of the two. -/
theorem execReplay_cases (s : State) :
    (s.mode = .single ∧ execReplay s = .next (armOnce s)) ∨
    (s.mode = .loop ∧ execReplay s = .next (armLoop s)) := by
  cases h : s.mode <;> simp [execReplay, h]

/-- The Producer enqueues one slot or waits. -/
theorem execPEnqueue_cases (s : State) :
    (∃ kind i w, s.rst = .replaying kind i ∧ s.tl[i]? = some w ∧ s.q.length < s.cfg.queueDepth ∧
      execPEnqueue s = .next { s with
        q := s.q ++ [w], enqn := s.enqn + 1, rst := advanceReplay kind i s.tl.length }) ∨
    execPEnqueue s = .next s := by
  cases hr : s.rst with
  | notReplaying => right; simp [execPEnqueue, hr]
  | replaying kind i =>
    cases hw : s.tl[i]? with
    | none => right; simp [execPEnqueue, hr, memRead, hw]
    | some w =>
      by_cases hq : s.q.length < s.cfg.queueDepth
      · left
        refine ⟨kind, i, w, rfl, hw, hq, ?_⟩
        simp [execPEnqueue, hr, memRead, hw, queueRoom, hq, enqueue]
      · right; simp [execPEnqueue, hr, memRead, hw, queueRoom, hq]

/-- The Consumer emits phase A of the next word or waits. -/
theorem execCEmitA_cases (s : State) :
    (∃ w rest, s.est = .active ∧ s.pb = none ∧ s.q = w :: rest ∧
      execCEmitA s = .next { s with
        port := phaseA w, trace := s.trace ++ [phaseA w], q := rest, pb := some (phaseB w) }) ∨
    execCEmitA s = .next s := by
  unfold execCEmitA
  split
  · next w rest h1 h2 h3 => exact .inl ⟨w, rest, h1, h2, h3, rfl⟩
  · exact .inr rfl

/-- The Consumer emits phase B of the word in flight or waits. -/
theorem execCEmitB_cases (s : State) :
    (∃ h, s.est = .active ∧ s.pb = some h ∧
      execCEmitB s = .next { s with port := h, trace := s.trace ++ [h], pb := none }) ∨
    execCEmitB s = .next s := by
  unfold execCEmitB
  split
  · next h h1 h2 => exact .inl ⟨h, h1, h2, rfl⟩
  · exact .inr rfl

/-- A replay either stays in the Timeline, or is over. -/
theorem advanceReplay_cases (kind : ReplayKind) (i n : Nat) :
    (i + 1 < n ∧ advanceReplay kind i n = .replaying kind (i + 1)) ∨
    (n ≤ i + 1 ∧ kind = .once ∧ advanceReplay kind i n = .notReplaying) ∨
    (n ≤ i + 1 ∧ kind = .loop ∧ advanceReplay kind i n = .replaying .loop 0) := by
  unfold advanceReplay
  by_cases h : i + 1 < n
  · simp [h]
  · cases kind <;> simp [h] <;> omega

end Sys2Proof.Machine
end

