-- ==== Sys2Proof/Laws/PerInstr.lean ====
section
/-! SUPPORT. The family DecodesWellFormed: whatever the decoder answers is well-formed. One lemma per constructor. -/

namespace Sys2Proof.Laws

/-- A packet that decodes to `i` gives a well-formed `i`. -/
def DecodesWellFormed.Statement (i : Instr) : Prop :=
  ∀ p, decode p = .ok i → i.wellFormed = true

theorem DecodesWellFormed.move (site : Site) (n : Nat) (d : Bool) (k : Nat) :
    DecodesWellFormed.Statement (.move site n d k) := fun _ _ => rfl

theorem DecodesWellFormed.hold (site : Site) (n : Nat) (d : Bool) (k : Nat) :
    DecodesWellFormed.Statement (.hold site n d k) := fun _ _ => rfl

theorem DecodesWellFormed.reset : DecodesWellFormed.Statement .reset := fun _ _ => rfl

theorem DecodesWellFormed.compile (plan : Plan) : DecodesWellFormed.Statement (.compile plan) := by
  intro p h
  cases p with
  | motion channel index text =>
    simp only [decode, decodeMotion, motionInstr] at h
    repeat' split at h
    all_goals cases h
  | command c =>
    cases c with
    | compile plan' =>
      simp only [decode, decodeCommand] at h
      split at h
      · next hw => cases h; exact hw
      · cases h
    | pulseFor channel d a =>
      simp only [decode, decodeCommand, decodeChannel] at h
      split at h <;> cases h
    | mergeChannel channel requests =>
      simp only [decode, decodeCommand, decodeChannel] at h
      split at h <;> cases h
    | _ => cases h

theorem DecodesWellFormed.parse (text : Text) : DecodesWellFormed.Statement (.parse text) :=
  fun _ _ => rfl

theorem DecodesWellFormed.pulseFor (c : Channel) (d a : Bool) :
    DecodesWellFormed.Statement (.pulseFor c d a) := fun _ _ => rfl

theorem DecodesWellFormed.mergeChannel (c : Channel) (requests : List MotionRequest) :
    DecodesWellFormed.Statement (.mergeChannel c requests) := fun _ _ => rfl

theorem DecodesWellFormed.start : DecodesWellFormed.Statement .start := fun _ _ => rfl

theorem DecodesWellFormed.stop : DecodesWellFormed.Statement .stop := fun _ _ => rfl

theorem DecodesWellFormed.replayOnce : DecodesWellFormed.Statement .replayOnce := fun _ _ => rfl

theorem DecodesWellFormed.replayLoop : DecodesWellFormed.Statement .replayLoop := fun _ _ => rfl

theorem DecodesWellFormed.replay : DecodesWellFormed.Statement .replay := fun _ _ => rfl

theorem DecodesWellFormed.pEnqueue : DecodesWellFormed.Statement .pEnqueue := fun _ _ => rfl

theorem DecodesWellFormed.cEmitA : DecodesWellFormed.Statement .cEmitA := fun _ _ => rfl

theorem DecodesWellFormed.cEmitB : DecodesWellFormed.Statement .cEmitB := fun _ _ => rfl

end Sys2Proof.Laws
end

