-- ==== Sys2Proof/Laws/Step.lean ====
section
/-! SUPPORT. What one step of the machine can be. -/

namespace Sys2Proof.Machine

/-! ## One instruction -/

/-- MOVE, HOLD and MERGE_CHANNEL: the operations inside COMPILE that write the Timeline. -/
def IsMerge (i : Instr) : Prop :=
  (∃ site n d k, i = .move site n d k) ∨ (∃ site n d k, i = .hold site n d k) ∨
    ∃ c requests, i = .mergeChannel c requests

/-- REPLAY, REPLAY_ONCE and REPLAY_LOOP. -/
def IsReplay (i : Instr) : Prop :=
  i = .replay ∨ i = .replayOnce ∨ i = .replayLoop

/-- Every state that an instruction can leave, with the condition under which it does. The contents of a merged or
compiled Timeline are said by the lemmas on `mergeRequests` and `mergeChannels`. -/
inductive ExecResult (i : Instr) (s : State) : State → Prop where
  | unchanged (h : i ≠ .reset) : ExecResult i s s
  | returned (r : Returned) (h : (∃ text, i = .parse text) ∨ ∃ c d a, i = .pulseFor c d a) :
      ExecResult i s { s with ret := r }
  | merged (tl : List PulseWord) (cur : Vector Nat 8) (h : IsMerge i) (hc : s.cst = .building) :
      ExecResult i s { s with tl := tl, cur := cur }
  | mergeFault (d : Diagnostic) (h : IsMerge i) (hc : s.cst = .building) (hd : d.code ≠ .noFault) :
      ExecResult i s (raise d s)
  | compiled (p : Plan) (tl : List PulseWord) (cur : Vector Nat 8) (m : ReplayMode)
      (h : i = .compile p) (ha : AcceptsCompile s) :
      ExecResult i s { s with
        tl := tl, cur := cur, mode := m, channelCount := p.channels.length, cst := .frozen }
  | compileFault (p : Plan) (d : Diagnostic) (h : i = .compile p) (ha : AcceptsCompile s)
      (hd : d.code ≠ .noFault) : ExecResult i s (raise d s)
  | reset (h : i = .reset) :
      ExecResult i s { State.reset with cfg := s.cfg, inbox := s.inbox, turn := s.turn }
  | started (h : i = .start) (hf : s.fault = .noFault) : ExecResult i s { s with est := .active }
  | stopped (h : i = .stop) :
      ExecResult i s { s with est := .idle, q := [], pb := none, rst := .notReplaying }
  | armed (r : ReplayState) (h : IsReplay i) (hf : s.fault = .noFault) (hc : s.cst = .frozen)
      (hr : s.rst = .notReplaying) (h0 : r = .notReplaying ∨ ∃ kind, r = .replaying kind 0) :
      ExecResult i s { s with enqn := 0, rst := r }
  | enqueued (kind : ReplayKind) (j : Nat) (w : PulseWord) (h : i = .pEnqueue)
      (hr : s.rst = .replaying kind j) (hw : s.tl[j]? = some w) (hq : s.q.length < s.cfg.queueDepth) :
      ExecResult i s { s with
        q := s.q ++ [w], enqn := s.enqn + 1, rst := advanceReplay kind j s.tl.length }
  | emittedA (w : PulseWord) (rest : List PulseWord) (h : i = .cEmitA) (ha : s.est = .active)
      (hp : s.pb = none) (hq : s.q = w :: rest) :
      ExecResult i s { s with
        port := phaseA w, trace := s.trace ++ [phaseA w], q := rest, pb := some (phaseB w) }
  | emittedB (b : HalfWord) (h : i = .cEmitB) (ha : s.est = .active) (hp : s.pb = some b) :
      ExecResult i s { s with port := b, trace := s.trace ++ [b], pb := none }

theorem mergeRequest_eq_mergeRequests (c : Channel) (index : Nat) (r : MotionRequest) :
    mergeRequest c index r = mergeRequests c index [r] := by
  funext s
  simp only [mergeRequests]
  cases mergeRequest c index r s <;> rfl

theorem buildStep_result {i : Instr} (hi : IsMerge i) (c : Channel) (index : Nat)
    (requests : List MotionRequest) (s : State) :
    ExecResult i s (buildStep (mergeRequests c index requests) s) := by
  rcases buildStep_cases (mergeRequests c index requests) s with ⟨-, h⟩ | ⟨hc, t, ht, h⟩ | ⟨hc, d, hd, h⟩
  · rw [h]
    refine .unchanged ?_
    rintro rfl
    rcases hi with ⟨_, _, _, _, h⟩ | ⟨_, _, _, _, h⟩ | ⟨_, _, h⟩ <;> cases h
  · rw [h, mergeRequests_frame ht]; exact .merged _ _ hi hc
  · rw [h]; exact .mergeFault d hi hc (mergeRequests_error_code hd)

theorem armOnce_result {i : Instr} (hi : IsReplay i) (s : State) : ExecResult i s (armOnce s) := by
  rcases armOnce_cases s with ⟨ha, h⟩ | ⟨-, h⟩ <;> rw [h]
  · obtain ⟨hf, hc, hr⟩ := (replayAccepted_iff s).1 ha
    refine .armed _ hi hf hc hr ?_
    split
    · exact .inl rfl
    · exact .inr ⟨_, rfl⟩
  · exact .unchanged (by rintro rfl; simp [IsReplay] at hi)

theorem armLoop_result {i : Instr} (hi : IsReplay i) (s : State) : ExecResult i s (armLoop s) := by
  rcases armLoop_cases s with ⟨ha, h⟩ | ⟨-, h⟩ <;> rw [h]
  · obtain ⟨hf, hc, hr⟩ := (replayAccepted_iff s).1 ha
    exact .armed _ hi hf hc hr (.inr ⟨_, rfl⟩)
  · exact .unchanged (by rintro rfl; simp [IsReplay] at hi)

/-- What an instruction can do, said once. -/
theorem exec_result {i : Instr} {s t : State} (h : exec i s = .next t) : ExecResult i s t := by
  cases i with
  | move site n d k =>
    cases h
    rw [mergeRequest_eq_mergeRequests]
    exact buildStep_result (.inl ⟨site, n, d, k, rfl⟩) _ _ _ s
  | hold site n d k =>
    cases h
    rw [mergeRequest_eq_mergeRequests]
    exact buildStep_result (.inr (.inl ⟨site, n, d, k, rfl⟩)) _ _ _ s
  | mergeChannel c requests =>
    cases h
    exact buildStep_result (.inr (.inr ⟨c, requests, rfl⟩)) _ _ _ s
  | reset => cases h; exact .reset rfl
  | parse text => cases h; exact .returned _ (.inl ⟨text, rfl⟩)
  | pulseFor c d a => cases h; exact .returned _ (.inr ⟨c, d, a, rfl⟩)
  | compile p =>
    rcases execCompile_cases p s with ⟨-, he⟩ | ⟨ha, m, rq, built, -, hm, he⟩ | ⟨ha, d, hd, he⟩ <;>
      rw [exec, he] at h <;> cases h
    · exact .unchanged (by simp)
    · rw [mergeChannels_frame hm]
      exact .compiled p built.tl built.cur m rfl ha
    · exact .compileFault p d rfl ha (compileBody_error_code hd)
  | start =>
    cases h
    by_cases hf : s.fault = .noFault
    · have : faulted s = false := by simp [faulted, hf]
      rw [this]; exact .started rfl hf
    · have : faulted s = true := by simp [faulted, hf]
      rw [this]; exact .unchanged (by simp)
  | stop => cases h; exact .stopped rfl
  | replayOnce => cases h; exact armOnce_result (.inr (.inl rfl)) s
  | replayLoop => cases h; exact armLoop_result (.inr (.inr rfl)) s
  | replay =>
    rcases execReplay_cases s with ⟨-, he⟩ | ⟨-, he⟩ <;> rw [exec, he] at h <;> cases h
    · exact armOnce_result (.inl rfl) s
    · exact armLoop_result (.inl rfl) s
  | pEnqueue =>
    rcases execPEnqueue_cases s with ⟨kind, j, w, h1, h2, h3, he⟩ | he <;> rw [exec, he] at h <;> cases h
    · exact .enqueued kind j w rfl h1 h2 h3
    · exact .unchanged (by simp)
  | cEmitA =>
    rcases execCEmitA_cases s with ⟨w, rest, h1, h2, h3, he⟩ | he <;> rw [exec, he] at h <;> cases h
    · exact .emittedA w rest rfl h1 h2 h3
    · exact .unchanged (by simp)
  | cEmitB =>
    rcases execCEmitB_cases s with ⟨b, h1, h2, he⟩ | he <;> rw [exec, he] at h <;> cases h
    · exact .emittedB b rfl h1 h2
    · exact .unchanged (by simp)

/-! ## One step -/

/-- With no transaction to take, a step is one agent's (R9). -/
theorem idleStep_cases (agent : Agent) (s : State) :
    (∃ issues : List HostCommand, idleStep agent s = .next { s with turn := s.turn + 1, inbox := issues.map hostPacket }) ∨
    idleStep agent s = execPEnqueue { s with turn := s.turn + 1 } ∨
    idleStep agent s = execCEmitA { s with turn := s.turn + 1 } ∨
    idleStep agent s = execCEmitB { s with turn := s.turn + 1 } := by
  unfold idleStep
  cases agent with
  | host issues => exact .inl ⟨issues, rfl⟩
  | producer => exact .inr (.inl rfl)
  | consumer =>
    simp only [consumerStep]
    cases s.pb
    · exact .inr (.inr (.inl rfl))
    · exact .inr (.inr (.inr rfl))

/-- A build step that only fails is fatal entry inside COMPILE and nothing elsewhere. -/
theorem buildStep_error (d : Diagnostic) (s : State) :
    (s.cst = .building ∧ buildStep (fun _ => .error d) s = raise d s) ∨
    (s.cst ≠ .building ∧ buildStep (fun _ => .error d) s = s) := by
  rcases buildStep_cases (fun _ => .error d) s with ⟨hc, h⟩ | ⟨-, t, h, -⟩ | ⟨hc, d', hd, h⟩
  · exact .inr ⟨hc, h⟩
  · cases h
  · cases hd; exact .inl ⟨hc, h⟩

/-- A rejected packet is a fatal error inside COMPILE, or changes nothing elsewhere, or is a plan that is refused. -/
theorem rejectPacket_cases (e : DecodeError) (s : State) :
    (∃ d, d.code ≠ .noFault ∧ s.cst = .building ∧ rejectPacket e s = .next (raise d s)) ∨
    (s.cst ≠ .building ∧ rejectPacket e s = .next s) ∨
    (e = .notAMapping ∧ rejectPacket e s = .refused .notAMapping) := by
  cases e with
  | grammar site text =>
    rcases buildStep_error (grammarDiagnostic site.channel.val site.index text) s with ⟨hc, h⟩ | ⟨hc, h⟩
    · exact .inl ⟨_, FaultCode.noConfusion, hc, congrArg Host.Outcome.next h⟩
    · exact .inr (.inl ⟨hc, congrArg Host.Outcome.next h⟩)
  | channelAboveSeven channel =>
    rcases buildStep_error (channelDiagnostic channel) s with ⟨hc, h⟩ | ⟨hc, h⟩
    · exact .inl ⟨_, FaultCode.noConfusion, hc, congrArg Host.Outcome.next h⟩
    · exact .inr (.inl ⟨hc, congrArg Host.Outcome.next h⟩)
  | notAMapping => exact .inr (.inr ⟨rfl, rfl⟩)

/-- A step under a schedule takes the next transaction, or none is there. -/
theorem stepUnder_cases (schedule : Nat → Agent) (s : State) :
    (s.inbox = [] ∧ stepUnder schedule s = idleStep (schedule s.turn) s) ∨
    (∃ p rest i, s.inbox = p :: rest ∧ decode p = .ok i ∧
      stepUnder schedule s = exec i { s with inbox := rest }) ∨
    (∃ p rest e, s.inbox = p :: rest ∧ decode p = .error e ∧
      stepUnder schedule s = rejectPacket e { s with inbox := rest }) := by
  cases hi : s.inbox with
  | nil => exact .inl ⟨rfl, by simp [stepUnder, hi]⟩
  | cons p rest =>
    cases hd : decode p with
    | ok i => exact .inr (.inl ⟨p, rest, i, rfl, hd, by simp [stepUnder, hi, hd]⟩)
    | error e => exact .inr (.inr ⟨p, rest, e, rfl, hd, by simp [stepUnder, hi, hd]⟩)

/-- A step takes the next transaction, or none is there. -/
theorem step_cases (s : State) :
    (s.inbox = [] ∧ step s = idleStep (Config.schedule s.turn) s) ∨
    (∃ p rest i, s.inbox = p :: rest ∧ decode p = .ok i ∧ step s = exec i { s with inbox := rest }) ∨
    (∃ p rest e, s.inbox = p :: rest ∧ decode p = .error e ∧
      step s = rejectPacket e { s with inbox := rest }) :=
  stepUnder_cases Config.schedule s

/-- No instruction touches the script or the count of free choices. -/
theorem exec_script {i : Instr} {s t : State} (h : exec i s = .next t) :
    t.inbox = s.inbox ∧ t.turn = s.turn := by
  cases exec_result h <;> exact ⟨rfl, rfl⟩

/-- What the agent that moves leaves in the script: the Host what it issues, the others what was there. -/
def scriptAfter (agent : Agent) (s : State) : List Packet :=
  match agent with
  | .host issues => issues.map hostPacket
  | _ => s.inbox

/-- With no transaction to take, a step always answers a next state and counts one choice. -/
theorem idleStep_next (agent : Agent) (s : State) :
    ∃ t, idleStep agent s = .next t ∧ t.inbox = scriptAfter agent s ∧ t.turn = s.turn + 1 := by
  cases agent with
  | host issues => exact ⟨_, rfl, rfl, rfl⟩
  | producer => exact ⟨_, rfl, exec_script (i := .pEnqueue) rfl⟩
  | consumer =>
    rw [idleStep, consumerStep]
    split
    · exact ⟨_, rfl, exec_script (i := .cEmitB) rfl⟩
    · exact ⟨_, rfl, exec_script (i := .cEmitA) rfl⟩

/-- A run of `k + 1` steps is a step and a run of `k`, on any machine. -/
theorem run_succ (M : Host.Core) {k : Nat} {s t : M.State} (h : M.step s = .next t) :
    M.run (k + 1) s = M.run k t := by
  rw [Host.Core.run, h]

/-- A run of `k + 1` steps is a step and a run of `k`. -/
theorem core_run_succ {k : Nat} {s t : State} (h : step s = .next t) :
    Sys2Proof.core.run (k + 1) s = Sys2Proof.core.run k t :=
  run_succ Sys2Proof.core h

/-- A meaning always answers a next state. -/
theorem exec_next (i : Instr) (s : State) : ∃ t, exec i s = .next t := by
  cases i <;> exact ⟨_, rfl⟩

end Sys2Proof.Machine
end

