-- ==== Sys2Proof/Tests/Slice0.lean ====
section
/-! SUPPORT. The model's own tests. Expected values are those of spec/95_test_vectors.md, named by vector, or worked
out by hand from the rule named. The second half shows, for each obligation with hypotheses, a case that meets them. -/

set_option maxRecDepth 8000

namespace Sys2Proof.Tests

open Sys2Proof Sys2Proof.Machine

/-! ## Helpers -/

/-- A block after reset with a concrete configuration: a queue of 4, no capacity bound. -/
def base : State := { State.reset with cfg := ⟨4, 1, 1, none⟩ }

/-- A block inside a COMPILE. -/
def building : State := { base with cst := .building }

/-- A plan from strings. -/
def planOf (mode : ReplayMode) (channels : List (Nat × List String)) : Plan :=
  ⟨channels.map fun e => (e.1, e.2.map String.toList), .known mode⟩

/-- The next state, where there is one. -/
def nextOf (o : Host.Outcome State Fault Refusal) : Option State :=
  match o with
  | .next t => some t
  | _ => none

/-- One field of the next state. -/
def after {α : Type} (o : Host.Outcome State Fault Refusal) (f : State → α) : Option α :=
  (nextOf o).map f

/-- The words of section 2.5. -/
def w0 : PulseWord := 0x0001000B#32

/-- The words of section 2.5. -/
def w1 : PulseWord := 0x00010003#32

/-- A frozen block with two slots. -/
def frozen : State := { base with cst := .frozen, tl := [w0, w1], cur := #v[2, 2, 0, 0, 0, 0, 0, 0] }

/-- A block halted by a ConfigError. -/
def halted : State := fatalState .configError 3 ⟨none, none, none⟩ base

/-! ## What WellFormed and the decoder refuse -/

def twice : Plan := planOf .single [(3, ["a1_s1_d0_v0"]), (3, ["a0_s1_d0_v0"])]

theorem test_plan_naming_an_id_twice_refused : twice.wellFormed = false := by decide
theorem test_instr_with_such_a_plan_refused : (Instr.compile twice).wellFormed = false := by decide
theorem test_decode_refuses_such_a_plan : decode (.command (.compile twice)) = .error .notAMapping := by decide
theorem test_depth_zero_refused : Config.wellFormed ⟨0, 1, 1, none⟩ = false := by decide
theorem test_delay_zero_refused : Config.wellFormed ⟨1, 0, 1, none⟩ = false := by decide
theorem test_step_bit_in_phase_b_refused : wordWellFormed 0x00020002#32 = false := by decide
theorem test_unequal_direction_bits_refused : wordWellFormed 0x00000001#32 = false := by decide
theorem test_channel_8_refused :
    decode (.command (.pulseFor 8 true true)) = .error (.channelAboveSeven 8) := by decide
/-- R223 b. -/
theorem test_channel_8_inside_compile :
    after (step { building with inbox := [.motion 8 0 "a1_s1_d0_v0".toList] }) (fun t => (t.fault, t.faultInfo)) =
      some (.configError, ⟨some 8, none, none⟩) := by decide
theorem test_channel_8_outside_compile :
    after (step { base with inbox := [.motion 8 0 "a1_s1_d0_v0".toList] }) (fun t => (t.fault, t.inbox)) =
      some (.noFault, []) := by decide
theorem test_step_refuses_such_a_plan :
    step { base with inbox := [.command (.compile twice)] } = .refused .notAMapping := rfl

/-! ## Decoding -/

/-- The eleven bytes that P1 writes out. -/
theorem test_decode_move_bytes :
    decodeTableWord 88 0x30765F31645F32735F3161 = some (.move ⟨0, 0⟩ 2 true 0) := by decide
/-- The bytes of V-P4, `a0_s5_d1_v2`: 61 30 5F 73 35 5F 64 31 5F 76 32. -/
theorem test_decode_hold_bytes :
    decodeTableWord 88 0x32765F31645F35735F3061 = some (.hold ⟨0, 0⟩ 5 true 2) := by decide
theorem test_decode_reset : decode (.command .reset) = .ok .reset := by decide
theorem test_decode_compile : decode (.command (.compile ⟨[], .known .loop⟩)) = .ok (.compile ⟨[], .known .loop⟩) := by
  decide
theorem test_decode_parse : decode (.command (.parse ['x'])) = .ok (.parse ['x']) := by decide
theorem test_decode_pulseFor : decode (.command (.pulseFor 7 true false)) = .ok (.pulseFor 7 true false) := by decide
theorem test_decode_mergeChannel : decode (.command (.mergeChannel 7 [])) = .ok (.mergeChannel 7 []) := by decide
theorem test_decode_start : decode (.command .start) = .ok .start := by decide
theorem test_decode_stop : decode (.command .stop) = .ok .stop := by decide
theorem test_decode_replayOnce : decode (.command .replayOnce) = .ok .replayOnce := by decide
theorem test_decode_replayLoop : decode (.command .replayLoop) = .ok .replayLoop := by decide
theorem test_decode_replay : decode (.command .replay) = .ok .replay := by decide
theorem test_decode_pEnqueue : decode (.command .pEnqueue) = .ok .pEnqueue := by decide
theorem test_decode_cEmitA : decode (.command .cEmitA) = .ok .cEmitA := by decide
theorem test_decode_cEmitB : decode (.command .cEmitB) = .ok .cEmitB := by decide

/-- The fetched word runs from reset: one slot pair of P1's MOVE. -/
theorem test_withFetchWord_runs :
    after (step (State.reset.withFetchWord 88 0x30765F31645F32735F3161)) State.tl =
      some [0x00010003#32, 0x00010003#32] := by decide

/-! ## PARSE and the serialiser -/

/-- V-P3. -/
theorem test_parse_leading_zeros :
    parse "a1_s010_d1_v00".toList = some ⟨true, 10, true, 0⟩ ∧
    serialise ⟨true, 10, true, 0⟩ = "a1_s10_d1_v0".toList := by decide
/-- V-P5. -/
theorem test_parse_without_range :
    parse "a1_s99999999999999999999_d0_v0".toList = some ⟨true, 99999999999999999999, false, 0⟩ := by decide
/-- V-P20. -/
theorem test_parse_ascii_digits_only : parse "a1_s١_d0_v0".toList = none := by decide
/-- V-P17, as the transaction answers it. -/
theorem test_execParse_fails_with_the_text :
    after (exec (.parse "".toList) base) State.ret = some (.parseFailed []) := by decide

/-! ## PULSE_FOR -/

/-- V-F5. -/
theorem test_pulseFor_channel_7 : pulseFor 7 true true = 0x4000C000#32 := by decide
/-- V-F2. -/
theorem test_pulseFor_channel_0 : after (exec (.pulseFor 0 false true) base) State.ret =
    some (.pulse 0x00000002#32) := by decide

/-! ## MOVE, HOLD, MERGE_CHANNEL, COMPILE -/

/-- V-C2 as one MOVE. -/
theorem test_move_interior_slots :
    after (exec (.move ⟨2, 0⟩ 3 true 2) building) (fun t => (t.tl, t.cur[2])) =
      some ([0x00100030#32, 0x00100010#32, 0x00100010#32, 0x00100030#32, 0x00100010#32, 0x00100010#32,
        0x00100030#32, 0x00100010#32, 0x00100010#32], 9) := by decide
/-- V-C8 as one HOLD. -/
theorem test_hold_direction_only :
    after (exec (.hold ⟨1, 0⟩ 2 true 0) building) State.tl = some [0x00040004#32, 0x00040004#32] := by decide
/-- V-C9: channel 1 merged into the four slots of channel 0, without growth. -/
theorem test_mergeChannel_no_growth :
    after (exec (.mergeChannel 1 [⟨true, 2, false, 1⟩]) { building with tl := List.replicate 4 0x00000002#32 })
      State.tl = some [0x0000000A#32, 0x00000002#32, 0x0000000A#32, 0x00000002#32] := by decide
/-- V-C4: one channel, three requests. -/
theorem test_mergeChannel_appends :
    after (exec (.mergeChannel 0 [⟨true, 2, true, 1⟩, ⟨false, 1, false, 2⟩, ⟨true, 1, false, 0⟩]) building)
      (fun t => (t.tl, t.cur[0])) =
      some ([0x00010003#32, 0x00010001#32, 0x00010003#32, 0x00010001#32, 0#32, 0#32, 0#32, 0x00000002#32], 8) := by
  decide
/-- V-C3, listed with channel 1 first (V-C10). -/
theorem test_compile_two_channels :
    after (exec (.compile (planOf .single [(1, ["a1_s3_d1_v1"]), (0, ["a1_s10_d1_v0"])])) base)
      (fun t => (t.tl, t.cur[0], t.cur[1], t.cst, t.channelCount)) =
      some ([0x0005000F#32, 0x00050007#32, 0x0005000F#32, 0x00050007#32, 0x0005000F#32, 0x00050007#32,
        0x00010003#32, 0x00010003#32, 0x00010003#32, 0x00010003#32], 10, 6, .frozen, 2) := by decide
/-- V-X7, from a block with a Timeline (V-X9). -/
theorem test_compile_first_bad_text :
    after (exec (.compile (planOf .loop [(5, ["nope"]), (3, ["a1_s1_d0_v0", "oops"])])) frozen)
      (fun t => (t.fault, t.faultInfo, t.tl, t.cst, t.exitStatus)) =
      some (.grammarError, ⟨some 3, some 1, some "oops".toList⟩, [], .unbuilt, 1) := by decide

/-! ## The engine -/

/-- V-E4. -/
theorem test_start : after (exec .start base) State.est = some .active := by decide
/-- V-X8. -/
theorem test_start_refused : after (exec .start halted) State.est = some .idle := by decide
/-- V-E14. -/
theorem test_stop :
    after (exec .stop { frozen with
      est := .active, q := [w1], pb := some 1#16, port := 0x000B#16, rst := .replaying .loop 0 })
      (fun t => (t.est, t.q, t.pb, t.rst, t.port)) = some (.idle, [], none, .notReplaying, 0x000B#16) := by decide
/-- V-E1. -/
theorem test_replayOnce_refused : after (exec .replayOnce base) State.rst = some .notReplaying := by decide
/-- V-E16. -/
theorem test_replayOnce_empty :
    after (exec .replayOnce { base with cst := .frozen, enqn := 7 }) (fun t => (t.rst, t.enqn)) =
      some (.notReplaying, 0) := by decide
/-- V-E2. -/
theorem test_replayLoop_refused :
    after (exec .replayLoop { frozen with rst := .replaying .once 1 }) State.rst = some (.replaying .once 1) := by
  decide
/-- V-E17. -/
theorem test_replayLoop_empty :
    after (exec .replayLoop { base with cst := .frozen }) State.rst = some (.replaying .loop 0) := by decide
/-- V-E18. -/
theorem test_replay_follows_mode :
    after (exec .replay { frozen with mode := .loop }) State.rst = some (.replaying .loop 0) := by decide
/-- V-E7. -/
theorem test_enqueue_last_once :
    after (exec .pEnqueue { frozen with rst := .replaying .once 1 }) (fun t => (t.q, t.rst, t.enqn)) =
      some ([w1], .notReplaying, 1) := by decide
/-- V-E8. -/
theorem test_enqueue_last_loop :
    after (exec .pEnqueue { frozen with rst := .replaying .loop 1 }) (fun t => (t.q, t.rst)) =
      some ([w1], .replaying .loop 0) := by decide
/-- V-E9. -/
theorem test_emitA :
    after (exec .cEmitA { frozen with est := .active, q := [w0, w1] }) (fun t => (t.port, t.pb, t.q, t.trace)) =
      some (0x000B#16, some 0x0001#16, [w1], [0x000B#16]) := by decide
/-- V-E11. -/
theorem test_emitA_waits_for_phase_b :
    after (exec .cEmitA { frozen with est := .active, q := [w1], pb := some 1#16 }) State.q = some [w1] := by decide
/-- V-E10. -/
theorem test_emitB :
    after (exec .cEmitB { frozen with est := .active, pb := some 1#16 }) (fun t => (t.port, t.pb, t.trace)) =
      some (0x0001#16, none, [0x0001#16]) := by decide
/-- V-E19. -/
theorem test_reset_clears_a_fault :
    after (exec .reset { halted with port := 5#16 }) (fun t => (t.fault, t.port, t.safeShutdown)) =
      some (.noFault, 0x0000#16, false) := by decide

/-! ## Witnesses: for each obligation with hypotheses, what meets them, at the boundary of each clause -/

/-- The shortest legal text. -/
def shortest : Text := "a0_s0_d0_v0".toList

theorem shortest_reads : ReadsAs shortest ⟨false, 0, false, 0⟩ :=
  ⟨['0'], ['0'], ⟨nofun, by simp⟩, ⟨nofun, by simp⟩, by decide, by decide, by decide⟩

theorem empty_reads_as_nothing : ¬ ∃ m, ReadsAs [] m := by
  rintro ⟨m, s, v, -, -, h, -⟩
  cases h

/-- A block whose Timeline may hold `n` slots. -/
def bounded (n : Nat) : State := { base with cfg := ⟨1, 1, 1, some n⟩ }

theorem bounded_fits {n k : Nat} (h : k ≤ n) : Fits (bounded n) k := by
  rintro capacity ⟨⟩; exact h

theorem bounded_overflows {n k : Nat} (h : n < k) : ¬ Fits (bounded n) k := fun hf =>
  absurd (hf n rfl) (by omega)

theorem base_fits (n : Nat) : Fits base n := by
  rintro capacity ⟨⟩

theorem base_accepts : AcceptsCompile base := ⟨rfl, rfl⟩

theorem bounded_accepts (n : Nat) : AcceptsCompile (bounded n) := ⟨rfl, rfl⟩

/-- V-C12's plan. -/
def eightSlots : Plan := planOf .single [(0, ["a1_s4_d0_v1"])]

theorem eightSlots_parses : ∀ e ∈ eightSlots.channels, ∀ text ∈ e.2, ∃ r, parse text = some r := by
  intro e he text ht
  simp only [eightSlots, planOf, List.map_cons, List.map_nil, List.mem_singleton] at he
  subst he
  simp only [List.mem_singleton] at ht
  subst ht
  exact ⟨⟨true, 4, false, 1⟩, by decide⟩

theorem witness_DecodeInvertsEncode : (Instr.compile eightSlots).wellFormed = true := by decide

theorem witness_ParserAcceptsTheGrammar : parse shortest = some ⟨false, 0, false, 0⟩ := by decide

theorem witness_DigitRunsAreDecimal : IsDigitRun ['0'] ∧ IsDigitRun ['9', '0', '0', '7'] :=
  ⟨⟨nofun, by simp⟩, ⟨nofun, by simp⟩⟩

theorem witness_ParseInvertsSerialise :
    parse (serialise ⟨true, 10, true, 0⟩) = parse (serialise ⟨true, 10, true, 0⟩) := rfl

theorem witness_SerialiseInvertsParse :
    IsDigitRun ['0'] ∧ IsDigitRun ['1', '0'] ∧ NoLeadingZero ['0'] ∧ NoLeadingZero ['1', '0'] :=
  ⟨⟨nofun, by simp⟩, ⟨nofun, by simp⟩, .inl (by decide), .inr (by decide)⟩

theorem witness_ParseReturnsRequestOrOffendingText :
    ReadsAs shortest ⟨false, 0, false, 0⟩ ∧ ¬ ∃ m, ReadsAs [] m :=
  ⟨shortest_reads, empty_reads_as_nothing⟩

theorem witness_ListedIllegalTextsAreRejected : "" ∈ ["a1_s10_v0_d1", ""] := by decide

theorem witness_StepRunsTheDecodedInstruction :
    { base with inbox := [.command .start] }.inbox = .command .start :: [] ∧
    decode (.command .start) = .ok .start ∧ Instr.wellFormed .start = true := ⟨rfl, rfl, rfl⟩

theorem witness_StepRaisesGrammarErrorInsideCompile :
    { base with inbox := [.motion 7 0 []] }.cst ≠ .building ∧
    { building with inbox := [.motion 7 0 []] }.inbox = .motion (7 : Channel).val 0 [] :: [] ∧
    { building with inbox := [.motion 7 0 []] }.cst = .building ∧ ¬ ∃ m, ReadsAs [] m :=
  ⟨by decide, rfl, rfl, empty_reads_as_nothing⟩

/-- A schedule in which the Host, who issues a START each time, the Producer and the Consumer take turns. -/
def busy (n : Nat) : Agent :=
  if n % 3 = 0 then .host [.start] else if n % 3 = 1 then .producer else .consumer

theorem witness_EmptyScriptLeavesTheAgentsFree :
    (base.inbox = [] ∧ base.pb = none) ∧ { base with est := .active, pb := some 1#16 }.pb ≠ none ∧
    busy base.turn = .host [.start] ∧ Instr.wellFormed .pEnqueue = true ∧ busy { base with turn := 1 }.turn = .producer ∧
    busy { base with turn := 2 }.turn = .consumer := by decide

theorem witness_LaneLaws : (0 : Channel) ≠ 7 := by decide

theorem witness_MergesStayInTheirLane :
    building.cst = .building ∧
    (∃ t, exec (.move ⟨7, 0⟩ 1 true 0) building = .next t ∧ t.cst = .building) ∧
    (∃ t, exec (.hold ⟨7, 0⟩ 1 true 0) building = .next t ∧ t.cst = .building) ∧
    (∃ t, exec (.mergeChannel 7 [⟨true, 1, true, 0⟩]) building = .next t ∧ t.cst = .building) :=
  ⟨rfl, ⟨_, rfl, by decide⟩, ⟨_, rfl, by decide⟩, ⟨_, rfl, by decide⟩⟩

/-- MOVE and HOLD: two slots fit exactly, three do not; slot 0 and slot 1 are the ends of the range, with an empty
lane; slot 2 is the first beyond it. -/
theorem witness_MoveWritesItsPulses :
    { bounded 2 with cst := .building }.cst = .building ∧
    Fits { bounded 2 with cst := .building } (cursor (bounded 2) 7 + 1 * (1 + 1)) ∧
    ¬ Fits { bounded 2 with cst := .building } (cursor (bounded 2) 7 + 3 * (1 + 0)) ∧
    (cursor (bounded 2) 7 ≤ 0 ∧ 1 < cursor (bounded 2) 7 + 1 * (1 + 1) ∧
      lane 7 (slot (bounded 2).tl 1) = (false, false, false, false)) ∧
    cursor (bounded 2) 7 + 1 * (1 + 1) ≤ 2 := by
  refine ⟨rfl, ?_, ?_, by decide, by decide⟩
  · rintro capacity ⟨⟩; decide
  · exact fun h => absurd (h 2 rfl) (by decide)

theorem witness_HoldKeepsDirectionWithoutPulses :
    { bounded 2 with cst := .building }.cst = .building ∧
    Fits { bounded 2 with cst := .building } (cursor (bounded 2) 7 + 2 * (1 + 0)) ∧
    ¬ Fits { bounded 2 with cst := .building } (cursor (bounded 2) 7 + 1 * (1 + 2)) ∧
    lane 7 (slot (bounded 2).tl 0) = (false, false, false, false) := by
  refine ⟨rfl, ?_, ?_, by decide⟩
  · rintro capacity ⟨⟩; decide
  · exact fun h => absurd (h 2 rfl) (by decide)

theorem witness_MovePulsesExactlyStepsTimes :
    building.cst = .building ∧ (∀ u, cursor building 2 ≤ u → stepA 2 (slot building.tl u) = false) ∧
    ∃ t, exec (.move ⟨2, 0⟩ 3 true 2) building = .next t ∧ t.cst = .building := by
  refine ⟨rfl, fun u _ => ?_, _, rfl, by decide⟩
  show stepA 2 (slot [] u) = false
  simp [slot, stepA]

/-- The second of two requests passes a capacity of 3; the first alone, of 4 slots, passes it too. -/
theorem witness_MergeChannelAppendsItsRequests :
    { bounded 3 with cst := .building }.cst = .building ∧
    Fits (bounded 3) (cursor (bounded 3) 0 + channelLength [⟨true, 1, true, 0⟩, ⟨false, 1, true, 1⟩]) ∧
    ([⟨true, 1, true, 0⟩, ⟨false, 1, true, 1⟩] : List MotionRequest)[1]? = some ⟨false, 1, true, 1⟩ ∧
    (Fits (bounded 3) (cursor (bounded 3) 0 + requestStart [⟨true, 3, true, 0⟩, ⟨true, 1, true, 0⟩] 1) ∧
      ¬ Fits (bounded 3) (cursor (bounded 3) 0 + requestStart [⟨true, 3, true, 0⟩, ⟨true, 1, true, 0⟩] 2)) ∧
    ¬ Fits (bounded 3) (cursor (bounded 3) 0 + requestStart [⟨true, 4, true, 0⟩] 1) :=
  ⟨rfl, bounded_fits (by decide), by decide, ⟨bounded_fits (by decide), bounded_overflows (by decide)⟩,
    bounded_overflows (by decide)⟩

theorem witness_ZeroStepsChangeNothing :
    building.cst = .building ∧ cursor building 0 ≤ building.tl.length ∧ Fits building building.tl.length := by
  refine ⟨rfl, by decide, ?_⟩
  rintro capacity ⟨⟩

theorem witness_BuildOperationsNeedACompile : base.cst ≠ .building ∧ frozen.cst ≠ .building := by decide

theorem witness_CompileBuildsTheTimeline :
    AcceptsCompile (bounded 8) ∧ Buildable eightSlots .single (bounded 8) := by
  refine ⟨bounded_accepts 8, by decide, by decide, rfl, by decide, eightSlots_parses, fun c => bounded_fits ?_⟩
  revert c; decide

theorem witness_CompileIsRefusedWhenFaultedOrReplaying :
    halted.fault ≠ .noFault ∧ { frozen with rst := .replaying .loop 1 }.rst ≠ .notReplaying := by decide

/-- Nine channels. -/
def nine : Plan := ⟨(List.range 9).map fun id => (id, []), .other "bounce".toList⟩

theorem witness_CompileRejectsNineChannels : AcceptsCompile base ∧ 8 < nine.channels.length :=
  ⟨base_accepts, by decide⟩

theorem witness_CompileRejectsBadModeOrChannel :
    AcceptsCompile base ∧
    (Plan.mk [(8, [])] (.other "bounce".toList)).mode = .other "bounce".toList ∧
    (planOf .single [(9, []), (0, []), (8, [])]).channels.length ≤ 8 ∧
    (planOf .single [(9, []), (0, []), (8, [])]).mode = .known .single ∧
    (∃ texts, (8, texts) ∈ (planOf .single [(9, []), (0, []), (8, [])]).channels) ∧
    ∀ e ∈ (planOf .single [(9, []), (0, []), (8, [])]).channels, 7 < e.1 → 8 ≤ e.1 :=
  ⟨base_accepts, rfl, by decide, rfl, ⟨[], by decide⟩, by decide⟩

/-- V-X7's plan. -/
def firstBad : Plan := planOf .loop [(5, ["nope"]), (3, ["a0_s0_d0_v0", "oops"])]

theorem witness_CompileReportsTheFirstBadText :
    AcceptsCompile base ∧ firstBad.wellFormed = true ∧ firstBad.channels.length ≤ 8 ∧
    firstBad.mode = .known .loop ∧ (∀ e ∈ firstBad.channels, e.1 ≤ 7) ∧
    (3, [shortest] ++ "oops".toList :: []) ∈ firstBad.channels ∧
    (∀ e ∈ firstBad.channels, e.1 < 3 → ∀ t ∈ e.2, ∃ r, parse t = some r) ∧
    (∀ t ∈ [shortest], ∃ r, parse t = some r) ∧ parse "oops".toList = none := by
  refine ⟨base_accepts, by decide, by decide, rfl, by decide, by decide, ?_, ?_, by decide⟩
  · intro e he h
    simp only [firstBad, planOf, List.map_cons, List.map_nil, List.mem_cons, List.not_mem_nil, or_false] at he
    rcases he with rfl | rfl <;> simp at h
  · intro t ht
    simp only [List.mem_singleton] at ht
    exact ⟨⟨false, 0, false, 0⟩, by rw [ht]; decide⟩

/-- V-C12: a capacity of 7 is passed by the first request. -/
theorem witness_CompileReportsTheFirstOverflow :
    AcceptsCompile (bounded 7) ∧ eightSlots.wellFormed = true ∧ eightSlots.channels.length ≤ 8 ∧
    eightSlots.mode = .known .single ∧ (∀ e ∈ eightSlots.channels, e.1 ≤ 7) ∧
    (∀ e ∈ eightSlots.channels, ∀ text ∈ e.2, ∃ r, parse text = some r) ∧
    (∀ c' : Channel, c' < 0 → Fits (bounded 7) (channelLength (planRequests eightSlots c'))) ∧
    0 < (planRequests eightSlots 0).length ∧
    ¬ Fits (bounded 7) (requestStart (planRequests eightSlots 0) (0 + 1)) :=
  ⟨bounded_accepts 7, by decide, by decide, rfl, by decide, eightSlots_parses,
    fun c h => absurd h (by simp), by decide, bounded_overflows (by decide)⟩

theorem witness_CompileIsAllOrNothing :
    AcceptsCompile (bounded 8) ∧ eightSlots.wellFormed = true ∧
    ∃ t, exec (.compile eightSlots) (bounded 8) = .next t ∧ t.cst = .frozen :=
  ⟨bounded_accepts 8, by decide, _, rfl, by decide⟩

/-- Two plans that list the same two channels in the two orders, and the two merges of V-C10. -/
theorem witness_MergeOrderDoesNotMatter :
    (([(0, [⟨true, 1, true, 0⟩]), (1, [])] : List (Channel × List MotionRequest)).map Prod.fst).Nodup ∧
    ([(0, [⟨true, 1, true, 0⟩]), (1, [])] : List (Channel × List MotionRequest)).Perm
      [(1, []), (0, [⟨true, 1, true, 0⟩])] ∧
    (∃ t, mergeChannels [(0, [⟨true, 1, true, 0⟩]), (1, [])] building = .ok t) ∧
    (planOf .single [(0, ["a1_s1_d1_v0"]), (1, [])]).wellFormed = true ∧
    (planOf .single [(0, ["a1_s1_d1_v0"]), (1, [])]).channels.Perm
      (planOf .single [(1, []), (0, ["a1_s1_d1_v0"])]).channels :=
  ⟨by decide, List.Perm.swap _ _ _, ⟨_, rfl⟩, by decide, List.Perm.swap _ _ _⟩

/-- Channel 0 with and without channel 1 beside it. -/
theorem witness_LaneDependsOnItsOwnListOnly :
    (planOf .single [(0, ["a1_s1_d1_v0"])]).wellFormed = true ∧
    (planOf .loop [(0, ["a1_s1_d1_v0"]), (1, ["a1_s2_d0_v0"])]).wellFormed = true ∧
    planTexts (planOf .single [(0, ["a1_s1_d1_v0"])]) 0 =
      planTexts (planOf .loop [(0, ["a1_s1_d1_v0"]), (1, ["a1_s2_d0_v0"])]) 0 ∧
    AcceptsCompile base ∧
    (∃ t, exec (.compile (planOf .single [(0, ["a1_s1_d1_v0"])])) base = .next t ∧ t.cst = .frozen ∧
      t.tl[0]? = some 0x00010003#32) ∧
    (∃ t, exec (.compile (planOf .loop [(0, ["a1_s1_d1_v0"]), (1, ["a1_s2_d0_v0"])])) base = .next t ∧
      t.cst = .frozen ∧ t.tl[0]? = some 0x0001000B#32) :=
  ⟨by decide, by decide, by decide, base_accepts, ⟨_, rfl, by decide, by decide⟩, ⟨_, rfl, by decide, by decide⟩⟩

theorem witness_FrozenTimelineIsReadOnly :
    frozen.cst = .frozen ∧ Instr.start ≠ .reset ∧ (∀ p, Instr.start ≠ .compile p) ∧
    exec .start frozen = .next { frozen with est := .active } :=
  ⟨rfl, by decide, fun p => by simp, rfl⟩

theorem witness_StartActivatesTheEngine : base.fault = .noFault ∧ halted.fault ≠ .noFault := by decide

/-- Both replay commands: accepted over two slots and over none, refused for each of the three reasons. -/
theorem witness_ReplayOnceArmsTheProducer :
    (frozen.fault = .noFault ∧ frozen.cst = .frozen ∧ frozen.rst = .notReplaying ∧ frozen.tl ≠ []) ∧
    ({ base with cst := .frozen }.fault = .noFault ∧ { base with cst := .frozen }.rst = .notReplaying ∧
      { base with cst := .frozen }.tl = []) ∧
    halted.fault ≠ .noFault ∧ base.cst ≠ .frozen ∧
    { frozen with rst := .replaying .once 1 }.rst ≠ .notReplaying := by decide

theorem witness_ReplayLoopArmsTheProducer :
    (frozen.fault = .noFault ∧ frozen.cst = .frozen ∧ frozen.rst = .notReplaying) ∧
    halted.fault ≠ .noFault ∧ base.cst ≠ .frozen ∧
    { frozen with rst := .replaying .loop 0 }.rst ≠ .notReplaying := by decide

theorem witness_ReplayFollowsTheMode :
    frozen.mode = .single ∧ { frozen with mode := .loop }.mode = .loop ∧ frozen.fault = .noFault ∧
    frozen.cst = .frozen ∧ frozen.rst = .notReplaying ∧ frozen.tl ≠ [] := by decide

/-- The first slot with room for one word (V-E6), and the last slot in both kinds (V-E7, V-E8). -/
theorem witness_EnqueueCopiesTheNextSlot :
    (frozen.tl[0]? = some w0 ∧ ([] : List PulseWord).length < 1 ∧ 0 + 1 < frozen.tl.length) ∧
    ({ frozen with rst := .replaying .once 1 }.rst = .replaying .once 1 ∧ frozen.tl[1]? = some w1 ∧
      frozen.q.length < frozen.cfg.queueDepth ∧ 1 + 1 = frozen.tl.length) ∧
    { frozen with rst := .replaying .loop 1 }.rst = .replaying .loop 1 := by decide

/-- No replay; a full queue; the empty Timeline of V-E17. -/
theorem witness_EnqueueWaitsWhenNotEnabled :
    base.rst = .notReplaying ∧
    { bounded 9 with q := [w0] }.cfg.queueDepth ≤ { bounded 9 with q := [w0] }.q.length ∧
    ∃ kind i, { base with rst := .replaying .loop 0 }.rst = .replaying kind i ∧ base.tl.length ≤ i :=
  ⟨rfl, by decide, .loop, 0, rfl, by decide⟩

/-- The engine of V-E9. -/
def running : State := { frozen with est := .active, q := [w0, w1] }

theorem witness_EmitATakesTheNextWord :
    running.est = .active ∧ running.pb = none ∧ running.q = w0 :: [w1] := by decide

theorem witness_EmitBReleasesTheWordInFlight :
    { frozen with est := .active, pb := some 1#16 }.est = .active ∧
    { frozen with est := .active, pb := some 1#16 }.pb = some 1#16 := by decide

theorem witness_ConsumerWaitsWhenNotEnabled :
    base.est = .idle ∧ { running with pb := some 1#16 }.pb ≠ none ∧ base.q = [] ∧ base.pb = none := by decide

/-- Idle to Active, Active to Idle, and a drain that leaves a word. -/
theorem witness_EngineChangesStateByStartAndStopOnly :
    (base.est = .idle ∧ ∃ t, exec .start base = .next t ∧ t.est = .active) ∧
    (running.est = .active ∧ ∃ t, exec .stop running = .next t ∧ t.est = .idle) ∧
    ∃ t, exec .cEmitA running = .next t ∧ running.q = w0 :: t.q :=
  ⟨⟨rfl, _, rfl, rfl⟩, ⟨rfl, _, rfl, rfl⟩, _, rfl, by decide⟩

theorem witness_EmissionsFollowTheQueue :
    (∃ t, exec .cEmitA running = .next t ∧ t.trace ≠ running.trace) ∧ Instr.cEmitA ≠ .reset ∧
    Instr.stop ≠ .pEnqueue ∧ (∃ t, exec .stop running = .next t ∧ t.q = []) ∧
    ∃ t, exec .pEnqueue { frozen with rst := .replaying .once 0 } = .next t ∧ t.q = [w0] :=
  ⟨⟨_, rfl, by decide⟩, by decide, by decide, ⟨_, rfl, rfl⟩, _, rfl, by decide⟩

/-- One slot, armed, on an Active engine with a queue of one, and the script of three steps that plays it. -/
def oneSlot : State := { bounded 1 with
  cst := .frozen, est := .active, tl := [w0], rst := .replaying .once 0
  inbox := [.command .pEnqueue, .command .cEmitA, .command .cEmitB] }

theorem witness_OnceReplayEmitsTheWholeTimeline :
    oneSlot.rst = .replaying .once 0 ∧ oneSlot.tl ≠ [] ∧ oneSlot.q = [] ∧ oneSlot.pb = none ∧ oneSlot.enqn = 0 ∧
    (∀ p ∈ oneSlot.inbox, IsAgentStep p) ∧
    ∃ t, Sys2Proof.core.run oneSlot.inbox.length oneSlot = .next t ∧ RunEnded t := by
  refine ⟨rfl, by decide, rfl, rfl, rfl, ?_, _, rfl, rfl, rfl, rfl, rfl⟩
  intro p hp
  simp only [oneSlot, List.mem_cons, List.not_mem_nil, or_false] at hp
  exact hp

theorem witness_OnceReplayReachesItsEnd :
    oneSlot.rst = .replaying .once 0 ∧ oneSlot.tl ≠ [] ∧ oneSlot.q = [] ∧ oneSlot.pb = none ∧
    oneSlot.est = .active ∧ oneSlot.fault = .noFault ∧ 1 ≤ oneSlot.cfg.queueDepth ∧
    oneSlot.inbox = (List.replicate oneSlot.tl.length
      [.command .pEnqueue, .command .cEmitA, .command .cEmitB]).flatten := by
  refine ⟨rfl, by decide, rfl, rfl, rfl, rfl, by decide, rfl⟩

theorem witness_NoEnqueueWithoutAReplay :
    (∃ t, exec .stop running = .next t) ∧ running.rst = .notReplaying ∧
    ∃ t, exec .cEmitA running = .next t ∧ t.q = [w1] :=
  ⟨⟨_, rfl⟩, rfl, _, rfl, by decide⟩

theorem witness_PortBelongsToTheEngine :
    (∃ t, exec .stop running = .next t) ∧ Instr.stop ≠ .cEmitA ∧ Instr.stop ≠ .cEmitB ∧ Instr.stop ≠ .reset :=
  ⟨⟨_, rfl⟩, by decide, by decide, by decide⟩

theorem witness_ReplayIntoAnIdleEngineHangs :
    { bounded 9 with q := [w0] }.est = .idle ∧
    { bounded 9 with q := [w0] }.q.length = { bounded 9 with q := [w0] }.cfg.queueDepth := by decide

theorem lane_of_empty {u : Nat} (c : Channel) : lane c (slot [] u) = (false, false, false, false) := by
  have h : slot [] u = 0#32 := rfl
  rw [h]
  revert c; decide

theorem base_invariant : Invariant base where
  config := rfl
  queueBound := Nat.zero_le _
  timelineLength := by decide
  timelineCapacity := nofun
  lanesPastCursor := fun c _ _ => lane_of_empty c
  unbuiltEmpty := fun _ => ⟨rfl, by decide⟩
  replayFrozen := nofun
  faultHalts := fun h => absurd rfl h
  idleHoldsNothing := fun _ => rfl
  timelineWords := nofun
  queueWords := nofun
  phaseBReleases := nofun
  outputs := ⟨rfl, nofun, fun h => absurd rfl h⟩

/-- An Active engine between the phases of a word whose eight direction lines are high. -/
def inFlight : State := { base with est := .active, pb := some 0x5555#16 }

theorem inFlight_invariant : Invariant inFlight where
  config := rfl
  queueBound := Nat.zero_le _
  timelineLength := by decide
  timelineCapacity := nofun
  lanesPastCursor := fun c _ _ => lane_of_empty c
  unbuiltEmpty := fun _ => ⟨rfl, by decide⟩
  replayFrozen := nofun
  faultHalts := fun h => absurd rfl h
  idleHoldsNothing := nofun
  timelineWords := nofun
  queueWords := nofun
  phaseBReleases := fun h hb => by cases hb; decide
  outputs := ⟨rfl, nofun, fun h => absurd rfl h⟩

theorem halted_invariant : Invariant halted where
  config := rfl
  queueBound := Nat.zero_le _
  timelineLength := by decide
  timelineCapacity := nofun
  lanesPastCursor := fun c _ _ => lane_of_empty c
  unbuiltEmpty := fun _ => ⟨rfl, by decide⟩
  replayFrozen := nofun
  faultHalts := fun _ => ⟨rfl, rfl, rfl, rfl, rfl, rfl, nofun⟩
  idleHoldsNothing := fun _ => rfl
  timelineWords := nofun
  queueWords := nofun
  phaseBReleases := nofun
  outputs := ⟨rfl, fun _ => nofun, fun _ => rfl⟩

theorem witness_PhaseBLeavesStepLinesLow :
    Invariant inFlight ∧ inFlight.est = .active ∧ inFlight.pb = some 0x5555#16 ∧
    ∃ t, exec .cEmitB inFlight = .next t ∧ t.port = 0x5555#16 :=
  ⟨inFlight_invariant, rfl, rfl, _, rfl, rfl⟩

/-- A fault from COMPILE, and one from MERGE_CHANNEL. -/
theorem witness_FaultsAriseOnlyInCompile :
    base.fault = .noFault ∧ (∃ t, exec (.compile nine) base = .next t ∧ t.fault = .channelOverflowError) ∧
    ∃ t, exec (.mergeChannel 0 [⟨true, 2, true, 0⟩]) { bounded 1 with cst := .building } = .next t ∧
      t.fault = .capacityError :=
  ⟨rfl, ⟨_, rfl, by decide⟩, _, rfl, by decide⟩

theorem witness_FaultedBlockIsHalted :
    Invariant halted ∧ halted.fault ≠ .noFault ∧ Instr.start ≠ .reset ∧ exec .start halted = .next halted :=
  ⟨halted_invariant, by decide, by decide, rfl⟩

theorem witness_ConfigurationNeverChanges :
    ∃ t, step { base with inbox := [.command .start] } = .next t ∧ t.est = .active := ⟨_, rfl, by decide⟩

theorem witness_EveryStepKeepsTheInvariant : Invariant base ∧ ∃ t, step base = .next t := by
  obtain ⟨t, h, -⟩ := idleStep_next (Config.schedule base.turn) base
  exact ⟨base_invariant, t, h⟩

/-- The three packets that can name a channel above 7, inside a COMPILE and outside. -/
theorem witness_StepOnAChannelAboveSeven :
    { building with inbox := [.motion 8 0 []] }.inbox = .motion 8 0 [] :: [] ∧ 7 < 8 ∧
    { building with inbox := [.motion 8 0 []] }.cst = .building ∧
    { base with inbox := [.command (.pulseFor 8 true true)] }.cst ≠ .building ∧
    { base with inbox := [.command (.mergeChannel 8 [])] }.inbox = .command (.mergeChannel 8 []) :: [] := by decide

theorem witness_StepRefusesAPlanNamingAnIdTwice :
    { base with inbox := [.command (.compile twice)] }.inbox = .command (.compile twice) :: [] ∧
    ¬ (twice.channels.map Prod.fst).Nodup := by decide

/-- One slot, armed, with no script. -/
def armedIdle (kind : ReplayKind) : State := { oneSlot with rst := .replaying kind 0, inbox := [] }

/-- The run from there under the busy schedule. -/
def fairRun (kind : ReplayKind) : Nat → State
  | 0 => armedIdle kind
  | n + 1 => (nextOf (stepUnder busy (fairRun kind n))).getD base

theorem fairRun_of_next {kind : ReplayKind} {n : Nat} {t : State} (h : stepUnder busy (fairRun kind n) = .next t) :
    fairRun kind (n + 1) = t := by
  rw [fairRun, h]; rfl

/-- Without a script the run takes the step that the schedule names. -/
theorem fairRun_idle {kind : ReplayKind} {n : Nat} (h : (fairRun kind n).inbox = []) :
    stepUnder busy (fairRun kind n) = .next (fairRun kind (n + 1)) ∧
    (fairRun kind (n + 1)).inbox = scriptAfter (busy (fairRun kind n).turn) (fairRun kind n) ∧
    (fairRun kind (n + 1)).turn = (fairRun kind n).turn + 1 := by
  obtain ⟨t, ht, hb, hn⟩ := idleStep_next (busy (fairRun kind n).turn) (fairRun kind n)
  have hs : stepUnder busy (fairRun kind n) = .next t := by rw [stepUnder, h]; exact ht
  rw [fairRun_of_next hs]
  exact ⟨hs, hb, hn⟩

/-- The Host's START is taken by the step after it. -/
theorem fairRun_start {kind : ReplayKind} {n : Nat} (h : (fairRun kind n).inbox = [.command .start]) :
    stepUnder busy (fairRun kind n) = .next (fairRun kind (n + 1)) ∧
    (fairRun kind (n + 1)).inbox = [] ∧ (fairRun kind (n + 1)).turn = (fairRun kind n).turn := by
  have hs : stepUnder busy (fairRun kind n) = exec .start { fairRun kind n with inbox := [] } := by
    rw [stepUnder, h]; rfl
  obtain ⟨t, ht⟩ := exec_next .start { fairRun kind n with inbox := [] }
  rw [fairRun_of_next (hs.trans ht)]
  exact ⟨hs.trans ht, exec_script ht⟩

/-- Four steps make a round: the Host issues, its START is taken, the Producer moves, the Consumer moves. -/
theorem fairRun_round (kind : ReplayKind) (k : Nat) :
    ((fairRun kind (4 * k)).inbox = [] ∧ (fairRun kind (4 * k)).turn = 3 * k) ∧
    ((fairRun kind (4 * k + 1)).inbox = [.command .start] ∧ (fairRun kind (4 * k + 1)).turn = 3 * k + 1) ∧
    ((fairRun kind (4 * k + 2)).inbox = [] ∧ (fairRun kind (4 * k + 2)).turn = 3 * k + 1) ∧
    ((fairRun kind (4 * k + 3)).inbox = [] ∧ (fairRun kind (4 * k + 3)).turn = 3 * k + 2) := by
  have round : ∀ k, (fairRun kind (4 * k)).inbox = [] ∧ (fairRun kind (4 * k)).turn = 3 * k →
      ((fairRun kind (4 * k + 1)).inbox = [.command .start] ∧ (fairRun kind (4 * k + 1)).turn = 3 * k + 1) ∧
      ((fairRun kind (4 * k + 2)).inbox = [] ∧ (fairRun kind (4 * k + 2)).turn = 3 * k + 1) ∧
      ((fairRun kind (4 * k + 3)).inbox = [] ∧ (fairRun kind (4 * k + 3)).turn = 3 * k + 2) ∧
      ((fairRun kind (4 * k + 4)).inbox = [] ∧ (fairRun kind (4 * k + 4)).turn = 3 * k + 3) := fun k ⟨b0, t0⟩ => by
    obtain ⟨-, b1, t1⟩ := fairRun_idle b0
    rw [t0, busy, if_pos (by omega)] at b1
    rw [t0] at t1
    obtain ⟨-, b2, t2⟩ := fairRun_start b1
    rw [t1] at t2
    obtain ⟨-, b3, t3⟩ := fairRun_idle b2
    rw [t2, busy, if_neg (by omega), if_pos (by omega)] at b3
    rw [t2] at t3
    have b3' := b3.trans b2
    obtain ⟨-, b4, t4⟩ := fairRun_idle b3'
    rw [t3, busy, if_neg (by omega), if_neg (by omega)] at b4
    rw [t3] at t4
    exact ⟨⟨b1, t1⟩, ⟨b2, t2⟩, ⟨b3', t3⟩, b4.trans b3', t4⟩
  have first : ∀ k, (fairRun kind (4 * k)).inbox = [] ∧ (fairRun kind (4 * k)).turn = 3 * k := fun k => by
    induction k with
    | zero => exact ⟨rfl, rfl⟩
    | succ k ih => exact (round k ih).2.2.2
  obtain ⟨h1, h2, h3, -⟩ := round k (first k)
  exact ⟨first k, h1, h2, h3⟩

theorem fairRun_script (kind : ReplayKind) (n : Nat) :
    (fairRun kind n).inbox = [] ∨ (fairRun kind n).inbox = [.command .start] := by
  obtain ⟨⟨h0, -⟩, ⟨h1, -⟩, ⟨h2, -⟩, h3, -⟩ := fairRun_round kind (n / 4)
  rcases (by omega : n = 4 * (n / 4) ∨ n = 4 * (n / 4) + 1 ∨ n = 4 * (n / 4) + 2 ∨ n = 4 * (n / 4) + 3) with
    h | h | h | h <;> rw [h]
  · exact .inl h0
  · exact .inr h1
  · exact .inl h2
  · exact .inl h3

/-- A fair run of either kind of replay, from the first slot of a queue of one, with a Host that issues STARTs for ever. -/
theorem witness_FairReplaysGoOn (kind : ReplayKind) :
    IsRunUnder busy (fairRun kind) ∧ Fair busy (fairRun kind) ∧
    (fairRun kind 0).fault = .noFault ∧ (fairRun kind 0).cst = .frozen ∧ (fairRun kind 0).est = .active ∧
    1 ≤ (fairRun kind 0).cfg.queueDepth ∧ (∀ n, Undisturbed (fairRun kind n)) ∧
    (fairRun kind 0).rst = .replaying kind 0 ∧ 0 < (fairRun kind 0).tl.length := by
  refine ⟨fun n => ?_, ⟨fun n _ => ⟨4 * n + 2, by omega, .inl ?_⟩, fun n _ => ⟨4 * n + 3, by omega, .inl ?_⟩⟩,
    rfl, rfl, rfl, Nat.le_refl _, fun n p rest i hb hd => ?_, rfl, Nat.zero_lt_one⟩
  · rcases fairRun_script kind n with h | h
    · exact (fairRun_idle h).1
    · exact (fairRun_start h).1
  · obtain ⟨-, -, ⟨hb, ht⟩, -⟩ := fairRun_round kind n
    exact ⟨hb, by rw [ht, busy, if_neg (by omega), if_pos (by omega)]⟩
  · obtain ⟨-, -, -, hb, ht⟩ := fairRun_round kind n
    exact ⟨hb, by rw [ht, busy, if_neg (by omega), if_neg (by omega)]⟩
  · rcases fairRun_script kind n with h | h <;> rw [h] at hb <;> cases hb
    cases hd
    exact ⟨nofun, nofun, fun _ => ⟨nofun, nofun, nofun, nofun⟩⟩

end Sys2Proof.Tests
end

section
/-! The scope of the model (00_scope.md): what one step is, whose it is, and that it writes no configuration. -/

namespace Sys2Proof.Machine

/-! ## A step by the script -/

/-- With a packet that decodes, a step under any schedule runs its instruction, the packet taken off the script. -/
theorem stepUnder_of_decode {schedule : Nat → Agent} {s : State} {p : Packet} {rest : List Packet} {i : Instr}
    (hscript : s.inbox = p :: rest) (hdecode : decode p = .ok i) :
    stepUnder schedule s = exec i { s with inbox := rest } := by
  simp only [stepUnder, hscript, hdecode]

/-- With an empty script, a step is the scheduled agent's move. -/
theorem stepUnder_of_empty {schedule : Nat → Agent} {s : State} (hscript : s.inbox = []) :
    stepUnder schedule s = idleStep (schedule s.turn) s := by
  simp only [stepUnder, hscript]

/-- Settles O9. -/
theorem stepRunsTheDecodedInstruction : Obligations.StepRunsTheDecodedInstruction :=
  fun _ _ _ _ hscript hdecode _ => stepUnder_of_decode hscript hdecode

/-! ## What the Host can issue (R203) -/

/-- The instruction that a move of the Host asks for. -/
def hostInstr : HostCommand → Instr
  | .reset => .reset
  | .compile plan => .compile plan
  | .start => .start
  | .stop => .stop
  | .replayOnce => .replayOnce
  | .replayLoop => .replayLoop
  | .replay => .replay

/-- The packet of a Host's move decodes to the instruction it asks for, where that is well-formed, and to no other. -/
theorem decode_hostPacket_eq_ok_iff (c : HostCommand) (i : Instr) :
    decode (hostPacket c) = .ok i ↔ hostInstr c = i ∧ i.wellFormed = true := by
  have good {j : Instr} (hj : j.wellFormed = true) :
      (Except.ok j : Except DecodeError Instr) = .ok i ↔ j = i ∧ i.wellFormed = true := by
    rw [Except.ok.injEq]
    exact ⟨fun h => ⟨h, h ▸ hj⟩, And.left⟩
  cases c with
  | compile plan =>
    by_cases hplan : plan.wellFormed = true
    · rw [hostPacket, decode, decodeCommand, if_pos hplan]
      exact good hplan
    · rw [hostPacket, decode, decodeCommand, if_neg hplan]
      refine ⟨nofun, ?_⟩
      rintro ⟨rfl, hwf⟩
      exact absurd hwf hplan
  | reset => exact good rfl
  | start => exact good rfl
  | stop => exact good rfl
  | replayOnce => exact good rfl
  | replayLoop => exact good rfl
  | replay => exact good rfl

/-- The instructions that the Host can ask for are those of R203. -/
theorem exists_hostInstr_eq_iff (i : Instr) :
    (∃ c, hostInstr c = i) ↔
      i = .reset ∨ (∃ plan, i = .compile plan) ∨ i = .start ∨ i = .stop ∨ i = .replayOnce ∨ i = .replayLoop ∨
        i = .replay := by
  constructor
  · rintro ⟨c, rfl⟩
    cases c <;> simp [hostInstr]
  · rintro (rfl | ⟨plan, rfl⟩ | rfl | rfl | rfl | rfl | rfl)
    · exact ⟨.reset, rfl⟩
    · exact ⟨.compile plan, rfl⟩
    · exact ⟨.start, rfl⟩
    · exact ⟨.stop, rfl⟩
    · exact ⟨.replayOnce, rfl⟩
    · exact ⟨.replayLoop, rfl⟩
    · exact ⟨.replay, rfl⟩

/-! ## The agents' moves -/

theorem consumerStep_of_inFlight {s : State} (h : s.pb ≠ none) : consumerStep s = exec .cEmitB s := by
  obtain ⟨half, hpb⟩ := Option.ne_none_iff_exists'.1 h
  simp only [consumerStep, hpb, exec]

theorem consumerStep_of_none {s : State} (h : s.pb = none) : consumerStep s = exec .cEmitA s := by
  simp only [consumerStep, h, exec]

/-- Settles O11: the Host's commands by `hostInstr`, then one clause for each agent that the schedule can name. -/
theorem emptyScriptLeavesTheAgentsFree : Obligations.EmptyScriptLeavesTheAgentsFree := by
  refine ⟨fun _ => rfl, fun i hwf => ?_, fun schedule s hscript => ?_⟩
  · rw [← exists_hostInstr_eq_iff]
    simp only [decode_hostPacket_eq_ok_iff, hwf, and_true]
  · rw [stepUnder_of_empty hscript]
    refine ⟨fun issues hhost => ?_, fun hproducer => ?_, fun hconsumer hpb => ?_, fun hconsumer hpb => ?_⟩
    · rw [hhost, idleStep]
    · rw [hproducer, idleStep, exec]
    · rw [hconsumer, idleStep]
      exact consumerStep_of_inFlight hpb
    · rw [hconsumer, idleStep]
      exact consumerStep_of_none hpb

/-! ## The configuration (R7, R261) -/

/-- No instruction writes the configuration: RESET carries it over, and every other result leaves the field alone. -/
theorem exec_cfg {i : Instr} {s t : State} (h : exec i s = .next t) : t.cfg = s.cfg := by
  cases exec_result h <;> rfl

theorem idleStep_cfg {agent : Agent} {s t : State} (h : idleStep agent s = .next t) : t.cfg = s.cfg := by
  rcases idleStep_cases agent s with ⟨issues, he⟩ | he | he | he <;> rw [he] at h
  · cases h; rfl
  · exact (exec_cfg (i := .pEnqueue) h :)
  · exact (exec_cfg (i := .cEmitA) h :)
  · exact (exec_cfg (i := .cEmitB) h :)

theorem rejectPacket_cfg {e : DecodeError} {s t : State} (h : rejectPacket e s = .next t) : t.cfg = s.cfg := by
  rcases rejectPacket_cases e s with ⟨d, -, -, he⟩ | ⟨-, he⟩ | ⟨-, he⟩ <;> rw [he] at h <;> cases h
  · exact raise_cfg d s
  · rfl

/-- No step writes the configuration, under any schedule. -/
theorem stepUnder_cfg {schedule : Nat → Agent} {s t : State} (h : stepUnder schedule s = .next t) :
    t.cfg = s.cfg := by
  rcases stepUnder_cases schedule s with ⟨-, he⟩ | ⟨p, rest, i, -, -, he⟩ | ⟨p, rest, e, -, -, he⟩ <;>
    rw [he] at h
  · exact idleStep_cfg h
  · exact (exec_cfg h :)
  · exact (rejectPacket_cfg h :)

/-- Settles O54. -/
theorem configurationNeverChanges : Obligations.ConfigurationNeverChanges :=
  fun _ _ h => stepUnder_cfg h

end Sys2Proof.Machine
end

section
/-! The state of the block (10_state.md): its values at reset (R35), and that every step keeps the invariant (R36). -/

namespace Sys2Proof.Machine

/-! ## Reset (R35, R24) -/

theorem zeroCursors_getElem (c : Channel) : zeroCursors[c] = 0 := by
  simp [zeroCursors]

/-- The queue has at least one place (D3), so an empty one is not full. -/
theorem qFull_reset : qFull State.reset = false :=
  decide_eq_false (Nat.succ_ne_zero _).symm

/-- Settles O53: the cursors and `Q_FULL` by their lemmas, every other value as it stands in the reset state. -/
theorem resetStateHasTheStatedValues : Obligations.ResetStateHasTheStatedValues :=
  ⟨rfl, zeroCursors_getElem, rfl, rfl, rfl, rfl, rfl, rfl, rfl, rfl, rfl, rfl, rfl, rfl, rfl, rfl, qFull_reset,
    rfl, rfl, rfl, rfl⟩

/-! ## The empty Timeline -/

/-- The empty Timeline has the length of the largest cursor (R36 item 2). -/
theorem sup_zeroCursors : (Finset.univ.sup fun c : Channel => zeroCursors[c]) = 0 :=
  (Finset.sup_eq_bot_iff _ _).2 fun c _ => zeroCursors_getElem c

theorem lane_slot_empty (c : Channel) (u : Nat) : lane c (slot [] u) = (false, false, false, false) := by
  rw [slot_of_length_le (Nat.zero_le u)]
  exact lane_zero c

theorem fits_zero (s : State) : Fits s 0 := fun _ _ => Nat.zero_le _

/-- The reset state over any configuration within R6's bounds, and any outside world, has the invariant. -/
theorem invariant_reset {cfg : Config} (hcfg : cfg.wellFormed = true) (inbox : List Packet) (turn : Nat) :
    Invariant { State.reset with cfg := cfg, inbox := inbox, turn := turn } where
  config := hcfg
  queueBound := Nat.zero_le _
  timelineLength := sup_zeroCursors.symm
  timelineCapacity := fits_zero _
  lanesPastCursor := fun c u _ => lane_slot_empty c u
  unbuiltEmpty := fun _ => ⟨rfl, zeroCursors_getElem⟩
  replayFrozen := nofun
  faultHalts := fun hf => absurd rfl hf
  idleHoldsNothing := fun _ => rfl
  timelineWords := nofun
  queueWords := nofun
  phaseBReleases := nofun
  outputs := ⟨rfl, nofun, fun hf => absurd rfl hf⟩

/-- The target's depth and delay are at least 1 (R6, D3, D4). -/
theorem implementation_wellFormed : Config.implementation.wellFormed = true := by
  simp [Config.wellFormed, Config.implementation]

/-- Settles O56. -/
theorem invariantHoldsAtReset : Obligations.InvariantHoldsAtReset :=
  invariant_reset implementation_wellFormed [] 0

/-! ## Words (R106) -/

theorem getLsbD_phaseB_stepBit (c : Channel) (w : PulseWord) : (phaseB w).getLsbD (2 * c.val + 1) = stepB c w := by
  have hbit : 2 * c.val + 1 < 16 := by omega
  simp [phaseB, stepB, hbit, Nat.add_assoc]

theorem getLsbD_phaseB_dirBit (c : Channel) (w : PulseWord) : (phaseB w).getLsbD (2 * c.val) = dirB c w := by
  have hbit : 2 * c.val < 16 := by omega
  simp [phaseB, dirB, hbit]

theorem getLsbD_phaseA_dirBit (c : Channel) (w : PulseWord) : (phaseA w).getLsbD (2 * c.val) = dirA c w := by
  have hbit : 2 * c.val < 16 := by omega
  simp [phaseA, dirA, hbit]

theorem wordWellFormed_iff_lanes (w : PulseWord) :
    wordWellFormed w = true ↔ ∀ c, stepB c w = false ∧ dirB c w = dirA c w := by
  simp only [wordWellFormed, decide_eq_true_eq, stepBit, dirBit, getLsbD_phaseB_stepBit, getLsbD_phaseB_dirBit,
    getLsbD_phaseA_dirBit]

theorem Memory.wf_iff_lanes (tl : List PulseWord) :
    Memory.wf tl = true ↔ ∀ w ∈ tl, ∀ c, stepB c w = false ∧ dirB c w = dirA c w := by
  simp only [Memory.wf_iff, wordWellFormed_iff_lanes]

/-! ## The block inside a COMPILE -/

/-- Inside a COMPILE the block is as a COMPILE found it: not faulted and without a replay. -/
theorem Invariant.acceptsCompile_of_building {s : State} (hs : Invariant s) (hc : s.cst = .building) :
    AcceptsCompile s := by
  constructor
  · by_contra hf
    obtain ⟨-, -, -, -, hunbuilt, -, -⟩ := hs.faultHalts hf
    rw [hc] at hunbuilt
    cases hunbuilt
  · cases hr : s.rst with
    | notReplaying => rfl
    | replaying kind i =>
      obtain ⟨hfrozen, -, -⟩ := hs.replayFrozen kind i hr
      rw [hc] at hfrozen
      cases hfrozen

/-- Without a fault and a replay, the compiler may move to a state that promises nothing of the Timeline: where a COMPILE
begins, and where it freezes. -/
theorem Invariant.setCst {s : State} (hs : Invariant s) (ha : AcceptsCompile s) {cst : CompilerState}
    (hcst : cst ≠ .unbuilt) : Invariant { s with cst := cst } :=
  { hs with
    unbuiltEmpty := fun hu => absurd hu hcst
    replayFrozen := fun _ _ hr => by
      obtain ⟨-, hrst⟩ := ha
      exact absurd (hrst.symm.trans hr) nofun
    faultHalts := fun hf => absurd ha.1 hf }

/-- The items of the invariant that speak of a Timeline and its cursors (R36 item 2, R106, R170), for a block with the
configuration of `s`. -/
structure TimelineInvariant (s : State) (tl : List PulseWord) (cur : Vector Nat 8) : Prop where
  length : tl.length = Finset.univ.sup fun c : Channel => cur[c]
  capacity : Fits s tl.length
  lanesPastCursor : ∀ (c : Channel) (u : Nat), cur[c] ≤ u → lane c (slot tl u) = (false, false, false, false)
  words : Memory.wf tl = true

theorem Invariant.timeline {s : State} (hs : Invariant s) : TimelineInvariant s s.tl s.cur :=
  ⟨hs.timelineLength, hs.timelineCapacity, hs.lanesPastCursor, (Memory.wf_iff_lanes _).2 hs.timelineWords⟩

theorem timelineInvariant_empty (s : State) : TimelineInvariant s [] zeroCursors :=
  ⟨sup_zeroCursors.symm, fits_zero s, fun c u _ => lane_slot_empty c u, rfl⟩

/-- Inside a COMPILE nothing else depends on the Timeline and the cursors. -/
theorem Invariant.setTimeline {s : State} (hs : Invariant s) (hc : s.cst = .building) {tl : List PulseWord}
    {cur : Vector Nat 8} (ht : TimelineInvariant s tl cur) : Invariant { s with tl := tl, cur := cur } :=
  { hs with
    timelineLength := ht.length
    timelineCapacity := ht.capacity
    lanesPastCursor := ht.lanesPastCursor
    timelineWords := (Memory.wf_iff_lanes tl).1 ht.words
    unbuiltEmpty := fun hu => absurd (hc.symm.trans hu) nofun
    replayFrozen := fun _ _ hr => by
      obtain ⟨-, hrst⟩ := hs.acceptsCompile_of_building hc
      exact absurd (hrst.symm.trans hr) nofun }

/-! ## Merges (R153, R154) -/

theorem set_getElem_channel (cur : Vector Nat 8) (c c' : Channel) (n : Nat) :
    (cur.set c n)[c'] = if c' = c then n else cur[c'] := by
  simp [Vector.getElem_set, Fin.ext_iff, eq_comm]

/-- A cursor that moves forward raises the largest cursor to where it stops, if it was below. -/
theorem sup_set_cursor {cur : Vector Nat 8} {c : Channel} {n : Nat} (hn : cur[c] ≤ n) :
    (Finset.univ.sup fun c' : Channel => (cur.set c n)[c']) = max (Finset.univ.sup fun c' : Channel => cur[c']) n := by
  have hle (c' : Channel) : cur[c'] ≤ Finset.univ.sup fun c' : Channel => cur[c'] :=
    Finset.le_sup (f := fun c' : Channel => cur[c']) (Finset.mem_univ c')
  have hle' (c' : Channel) : (cur.set c n)[c'] ≤ Finset.univ.sup fun c' : Channel => (cur.set c n)[c'] :=
    Finset.le_sup (f := fun c' : Channel => (cur.set c n)[c']) (Finset.mem_univ c')
  simp only [set_getElem_channel] at hle' ⊢
  apply le_antisymm
  · refine Finset.sup_le fun c' _ => ?_
    have := hle c'
    split <;> omega
  · have hc := hle' c
    rw [if_pos rfl] at hc
    refine max_le (Finset.sup_le fun c' _ => ?_) hc
    have := hle' c'
    split at this
    · subst c'; omega
    · exact this

/-- A request that fits keeps what the invariant says of the Timeline: its slots lie between the old cursor and the new. -/
theorem timelineInvariant_mergedTimeline {s : State} {c : Channel} {r : MotionRequest}
    (ht : TimelineInvariant s s.tl s.cur) (hfit : Fits s (cursor s c + expandedSteps r)) :
    TimelineInvariant s (mergedTimeline c (cursor s c) r s.tl) (s.cur.set c (cursor s c + expandedSteps r)) where
  length := by
    have hforward : s.cur[c] ≤ cursor s c + expandedSteps r := Nat.le_add_right _ _
    rw [mergedTimeline_length, sup_set_cursor hforward, ht.length]
  capacity := by
    rw [mergedTimeline_length]
    rcases max_choice s.tl.length (cursor s c + expandedSteps r) with hmax | hmax <;> rw [hmax]
    · exact ht.capacity
    · exact hfit
  lanesPastCursor := fun c' u hu => by
    rw [set_getElem_channel] at hu
    rw [slot_mergedTimeline]
    split at hu
    · subst c'
      have hold : s.cur[c] ≤ u := le_trans (Nat.le_add_right _ _) hu
      rw [if_neg fun hin => absurd hin.2 (Nat.not_lt.2 hu), BitVec.or_zero]
      exact ht.lanesPastCursor c u hold
    · next hne =>
      rw [lane_or_of_clear]
      · exact ht.lanesPastCursor c' u hu
      · split
        · exact lane_pulseFor_ne hne _ _
        · exact lane_zero c'
  words := Memory.wf_mergedTimeline c _ r ht.words

theorem mergeRequest_invariant {c : Channel} {index : Nat} {r : MotionRequest} {s t : State} (hs : Invariant s)
    (hc : s.cst = .building) (h : mergeRequest c index r s = .ok t) : Invariant t := by
  rcases mergeRequest_cases c index r s with ⟨hfit, he⟩ | ⟨-, he⟩ <;> rw [he] at h <;> cases h
  exact hs.setTimeline hc (timelineInvariant_mergedTimeline hs.timeline hfit)

theorem mergeRequests_invariant {c : Channel} {index : Nat} {requests : List MotionRequest} {s t : State}
    (hs : Invariant s) (hc : s.cst = .building) (h : mergeRequests c index requests s = .ok t) : Invariant t := by
  induction requests generalizing index s with
  | nil => cases h; exact hs
  | cons r rest ih =>
    rw [mergeRequests] at h
    split at h
    · next u hu =>
      have hcu : u.cst = .building := by
        rw [mergeRequest_eq_mergeRequests] at hu
        rw [mergeRequests_frame hu]
        exact hc
      exact ih (mergeRequest_invariant hs hc hu) hcu h
    · cases h

theorem mergeChannels_invariant {lists : List (Channel × List MotionRequest)} {s t : State} (hs : Invariant s)
    (hc : s.cst = .building) (h : mergeChannels lists s = .ok t) : Invariant t := by
  induction lists generalizing s with
  | nil => cases h; exact hs
  | cons e rest ih =>
    obtain ⟨c, requests⟩ := e
    rw [mergeChannels] at h
    split at h
    · next u hu =>
      have hcu : u.cst = .building := by
        rw [mergeRequests_frame hu]
        exact hc
      exact ih (mergeRequests_invariant hs hc hu) hcu h
    · cases h

/-! ## Fatal entry (R229) -/

theorem faultNumber_ne_zero {code : FaultCode} (h : code ≠ .noFault) : faultNumber code ≠ 0 := by
  cases code with
  | noFault => exact absurd rfl h
  | _ => exact Nat.succ_ne_zero _

/-- Fatal entry leaves the halted, empty block that the invariant asks of a faulted one (R232). -/
theorem raise_invariant {s : State} (hs : Invariant s) {d : Diagnostic} (hd : d.code ≠ .noFault) :
    Invariant (raise d s) where
  config := hs.config
  queueBound := Nat.zero_le _
  timelineLength := sup_zeroCursors.symm
  timelineCapacity := fits_zero _
  lanesPastCursor := fun c u _ => lane_slot_empty c u
  unbuiltEmpty := fun _ => ⟨rfl, zeroCursors_getElem⟩
  replayFrozen := nofun
  faultHalts := fun _ => ⟨rfl, rfl, rfl, rfl, rfl, rfl, faultNumber_ne_zero hd⟩
  idleHoldsNothing := fun _ => rfl
  timelineWords := nofun
  queueWords := nofun
  phaseBReleases := nofun
  outputs := ⟨rfl, fun _ => hd, fun _ => rfl⟩

/-! ## The compiler's instructions -/

/-- MOVE, HOLD and MERGE_CHANNEL keep the invariant: inside a COMPILE they merge or enter fatal entry. -/
theorem buildStep_invariant {c : Channel} {index : Nat} {requests : List MotionRequest} {s : State}
    (hs : Invariant s) : Invariant (buildStep (mergeRequests c index requests) s) := by
  rcases buildStep_cases (mergeRequests c index requests) s with ⟨-, h⟩ | ⟨hc, t, ht, h⟩ | ⟨-, d, hd, h⟩ <;>
    rw [h]
  · exact hs
  · exact mergeRequests_invariant hs hc ht
  · exact raise_invariant hs (mergeRequests_error_code hd)

theorem exec_invariant_of_isMerge {i : Instr} {s t : State} (hs : Invariant s) (hi : IsMerge i)
    (h : exec i s = .next t) : Invariant t := by
  rcases hi with ⟨site, n, d, k, rfl⟩ | ⟨site, n, d, k, rfl⟩ | ⟨c, requests, rfl⟩ <;> cases h
  · rw [mergeRequest_eq_mergeRequests]
    exact buildStep_invariant hs
  · rw [mergeRequest_eq_mergeRequests]
    exact buildStep_invariant hs
  · exact buildStep_invariant hs

/-- COMPILE builds from the empty Timeline, which has the invariant, and freezes what it built (R152, R165). -/
theorem execCompile_invariant {p : Plan} {s t : State} (hs : Invariant s) (h : execCompile p s = .next t) :
    Invariant t := by
  rcases execCompile_cases p s with ⟨-, he⟩ | ⟨ha, mode, requests, built, -, hm, he⟩ | ⟨-, d, hd, he⟩ <;>
    rw [he] at h <;> cases h
  · exact hs
  · have hbegin : Invariant { s with cst := .building, tl := [], cur := zeroCursors } :=
      (hs.setCst ha (by decide)).setTimeline rfl (timelineInvariant_empty _)
    have hbuilt : Invariant built := mergeChannels_invariant hbegin rfl hm
    have hbuilding : built.cst = .building := by rw [mergeChannels_frame hm]
    have hfrozen : Invariant { built with cst := .frozen } :=
      hbuilt.setCst (hbuilt.acceptsCompile_of_building hbuilding) (by decide)
    exact { hfrozen with }
  · exact raise_invariant hs (compileBody_error_code hd)

/-! ## The engine's instructions -/

theorem Invariant.start {s : State} (hs : Invariant s) (hf : s.fault = .noFault) :
    Invariant { s with est := .active } :=
  { hs with
    faultHalts := fun hne => absurd hf hne
    idleHoldsNothing := nofun }

theorem Invariant.stop {s : State} (hs : Invariant s) :
    Invariant { s with est := .idle, q := [], pb := none, rst := .notReplaying } :=
  { hs with
    queueBound := Nat.zero_le _
    replayFrozen := nofun
    faultHalts := fun hf => by
      obtain ⟨-, -, -, -, hcst, hshutdown, hexit⟩ := hs.faultHalts hf
      exact ⟨rfl, rfl, rfl, rfl, hcst, hshutdown, hexit⟩
    idleHoldsNothing := fun _ => rfl
    queueWords := nofun
    phaseBReleases := nofun }

/-- A replay of a frozen Timeline without a fault may stand at any of its slots, or at its end. -/
theorem Invariant.setReplay {s : State} (hs : Invariant s) (hf : s.fault = .noFault) (hc : s.cst = .frozen)
    {rst : ReplayState} (hr : ∀ kind i, rst = .replaying kind i → i ≤ s.tl.length) : Invariant { s with rst := rst } :=
  { hs with
    replayFrozen := fun kind i h => ⟨hc, hf, hr kind i h⟩
    faultHalts := fun hne => absurd hf hne }

/-- Where a replay goes from a slot of the Timeline is a slot of it again. -/
theorem le_length_of_advanceReplay {kind kind' : ReplayKind} {i j n : Nat}
    (h : advanceReplay kind i n = .replaying kind' j) : j ≤ n := by
  rcases advanceReplay_cases kind i n with ⟨hlt, he⟩ | ⟨-, -, he⟩ | ⟨-, -, he⟩ <;> rw [he] at h <;> cases h
  · exact hlt.le
  · exact Nat.zero_le n

/-- In a block without a fault, a well-formed word may enter a queue that has room. -/
theorem Invariant.pushQueue {s : State} (hs : Invariant s) (hf : s.fault = .noFault)
    (hq : s.q.length < s.cfg.queueDepth) {w : PulseWord} (hw : ∀ c, stepB c w = false ∧ dirB c w = dirA c w) :
    Invariant { s with q := s.q ++ [w] } :=
  { hs with
    queueBound := by simpa using hq
    faultHalts := fun hne => absurd hf hne
    queueWords := fun v hv => by
      rcases List.mem_append.1 hv with hv | hv
      · exact hs.queueWords v hv
      · rw [List.mem_singleton.1 hv]
        exact hw }

/-- P_ENQUEUE: the word is one of the Timeline's, and the replay moves along it. -/
theorem Invariant.enqueueSlot {s : State} {kind : ReplayKind} {j : Nat} {w : PulseWord} (hs : Invariant s)
    (hr : s.rst = .replaying kind j) (hw : s.tl[j]? = some w) (hq : s.q.length < s.cfg.queueDepth) :
    Invariant { s with q := s.q ++ [w], rst := advanceReplay kind j s.tl.length } := by
  obtain ⟨hc, hf, -⟩ := hs.replayFrozen kind j hr
  have hpushed := hs.pushQueue hf hq (hs.timelineWords w (List.mem_of_getElem? hw))
  exact hpushed.setReplay hf hc fun _ _ => le_length_of_advanceReplay

/-- An Active engine is not faulted. -/
theorem Invariant.fault_of_active {s : State} (hs : Invariant s) (ha : s.est = .active) : s.fault = .noFault := by
  by_contra hf
  obtain ⟨hidle, -⟩ := hs.faultHalts hf
  rw [ha] at hidle
  cases hidle

/-- C_EMIT_A: the head of the queue leaves its phase B in flight, with every step line low. -/
theorem Invariant.takeHead {s : State} {w : PulseWord} {rest : List PulseWord} (hs : Invariant s)
    (ha : s.est = .active) (hq : s.q = w :: rest) : Invariant { s with q := rest, pb := some (phaseB w) } :=
  { hs with
    queueBound := by
      have hbound := hs.queueBound
      rw [hq, List.length_cons] at hbound
      exact Nat.le_of_succ_le hbound
    faultHalts := fun hf => absurd (hs.fault_of_active ha) hf
    idleHoldsNothing := fun hidle => absurd (ha.symm.trans hidle) nofun
    queueWords := fun v hv => hs.queueWords v (hq ▸ List.mem_cons_of_mem w hv)
    phaseBReleases := fun h hb c => by
      cases hb
      obtain ⟨hstep, -⟩ := hs.queueWords w (hq ▸ List.mem_cons_self) c
      rw [getLsbD_phaseB_stepBit, hstep] }

/-- C_EMIT_B: nothing is in flight any more. -/
theorem Invariant.clearPhaseB {s : State} (hs : Invariant s) (ha : s.est = .active) :
    Invariant { s with pb := none } :=
  { hs with
    faultHalts := fun hf => absurd (hs.fault_of_active ha) hf
    idleHoldsNothing := fun _ => rfl
    phaseBReleases := nofun }

/-! ## Every step (R36) -/

/-- Every instruction keeps the invariant, by what it can leave. `{ h with }` carries the invariant `h` over to a state
that differs only in fields of which it does not speak: `MODE`, `CHANNEL_COUNT`, `PORT`, `TRACE`, `ENQN` and the
model's own but the configuration. -/
theorem exec_invariant {i : Instr} {s t : State} (hs : Invariant s) (h : exec i s = .next t) : Invariant t := by
  cases exec_result h with
  | unchanged => exact hs
  | returned => exact { hs with }
  | merged _ _ hi => exact exec_invariant_of_isMerge hs hi h
  | mergeFault d _ _ hd => exact raise_invariant hs hd
  | compiled p _ _ _ hi => subst hi; exact execCompile_invariant hs h
  | compileFault p d _ _ hd => exact raise_invariant hs hd
  | reset => exact invariant_reset hs.config s.inbox s.turn
  | started _ hf => exact hs.start hf
  | stopped => exact hs.stop
  | armed rst _ hf hc _ h0 =>
    have harmed : Invariant { s with rst := rst } := hs.setReplay hf hc fun kind i hr => by
      rcases h0 with rfl | ⟨_, rfl⟩ <;> cases hr
      exact Nat.zero_le _
    exact { harmed with }
  | enqueued _ _ _ _ hr hw hq => exact { hs.enqueueSlot hr hw hq with }
  | emittedA _ _ _ ha _ hq => exact { hs.takeHead ha hq with }
  | emittedB _ _ ha => exact { hs.clearPhaseB ha with }

theorem idleStep_invariant {agent : Agent} {s t : State} (hs : Invariant s) (h : idleStep agent s = .next t) :
    Invariant t := by
  have hcounted : Invariant { s with turn := s.turn + 1 } := { hs with }
  rcases idleStep_cases agent s with ⟨issues, he⟩ | he | he | he <;> rw [he] at h
  · cases h; exact { hs with }
  · exact exec_invariant hcounted (i := .pEnqueue) h
  · exact exec_invariant hcounted (i := .cEmitA) h
  · exact exec_invariant hcounted (i := .cEmitB) h

theorem rejectPacket_invariant {e : DecodeError} {s t : State} (hs : Invariant s) (h : rejectPacket e s = .next t) :
    Invariant t := by
  rcases rejectPacket_cases e s with ⟨d, hd, -, he⟩ | ⟨-, he⟩ | ⟨-, he⟩ <;> rw [he] at h <;> cases h
  · exact raise_invariant hs hd
  · exact hs

/-- Every step keeps the invariant, under any schedule. -/
theorem stepUnder_invariant {schedule : Nat → Agent} {s t : State} (hs : Invariant s)
    (h : stepUnder schedule s = .next t) : Invariant t := by
  have htaken (rest : List Packet) : Invariant { s with inbox := rest } := { hs with }
  rcases stepUnder_cases schedule s with ⟨-, he⟩ | ⟨p, rest, i, -, -, he⟩ | ⟨p, rest, e, -, -, he⟩ <;> rw [he] at h
  · exact idleStep_invariant hs h
  · exact exec_invariant (htaken rest) h
  · exact rejectPacket_invariant (htaken rest) h

/-- Settles O57. -/
theorem everyStepKeepsTheInvariant : Obligations.EveryStepKeepsTheInvariant :=
  fun _ _ hs h => stepUnder_invariant hs h

end Sys2Proof.Machine
end

section
/-! Words and lanes (20_memory.md): the two halves of a word (R61), and that a merge stays in its lane (R67). -/

namespace Sys2Proof.Machine

/-! ## The halves of a word (R61, D2) -/

theorem phaseA_append (a b : HalfWord) : phaseA (b ++ a) = a :=
  BitVec.extractLsb'_append_eq_right

theorem phaseB_append (a b : HalfWord) : phaseB (b ++ a) = b :=
  BitVec.extractLsb'_append_eq_left

theorem phaseB_append_phaseA (w : PulseWord) : phaseB w ++ phaseA w = w :=
  BitVec.extractLsb'_append_extractLsb' (w := 16) (len := 16)

/-- Settles O12. -/
theorem phasesAreTheHalvesOfAWord : Obligations.PhasesAreTheHalvesOfAWord :=
  ⟨fun a b => ⟨phaseA_append a b, phaseB_append a b⟩, phaseB_append_phaseA⟩

/-! ## What a merge adds to a slot (R67) -/

/-- A channel's word has no bit outside the channel's lane. -/
theorem pulseFor_outside_lane (c : Channel) (d a : Bool) :
    pulseFor c d a &&& ~~~(laneMask c ++ laneMask c) = 0#32 := by
  revert c d a; decide

/-- What a channel's requests put into a slot is one of the channel's words, or nothing. -/
theorem contribution_outside_lane (c : Channel) (requests : List MotionRequest) (o : Nat) :
    contribution c requests o &&& ~~~(laneMask c ++ laneMask c) = 0#32 := by
  induction requests generalizing o with
  | nil => exact BitVec.zero_and
  | cons r rest ih =>
    rw [contribution]
    split
    · exact pulseFor_outside_lane c _ _
    · exact ih _

/-- A merge that ends without a fault ORs the requests' contribution into every slot from the cursor on. -/
theorem slot_of_mergeRequests {c : Channel} {index : Nat} {requests : List MotionRequest} {s t : State}
    (h : mergeRequests c index requests s = .ok t) (u : Nat) :
    slot t.tl u = slot s.tl u |||
      (if cursor s c ≤ u then contribution c requests (u - cursor s c) else 0#32) := by
  rcases mergeRequests_cases c index requests s with ⟨-, -, rfl | hfit⟩ | ⟨j, he⟩
  · cases h
    simp [contribution]
  · obtain ⟨tl, hok, -, hslot⟩ := mergeRequests_of_fits c index requests s hfit
    rw [hok] at h
    cases h
    exact hslot u
  · rw [he] at h
    cases h

/-- MOVE, HOLD and MERGE_CHANNEL are each the merge of a list of requests on their channel. -/
theorem exec_merge_eq {i : Instr} {c : Channel} {index n k : Nat} {d : Bool} {requests : List MotionRequest}
    (hi : i = .move ⟨c, index⟩ n d k ∨ i = .hold ⟨c, index⟩ n d k ∨ i = .mergeChannel c requests) (s : State) :
    ∃ first merged, exec i s = .next (buildStep (mergeRequests c first merged) s) := by
  rcases hi with rfl | rfl | rfl
  · exact ⟨index, [⟨true, n, d, k⟩], by rw [exec, execMove, mergeRequest_eq_mergeRequests]⟩
  · exact ⟨index, [⟨false, n, d, k⟩], by rw [exec, execHold, mergeRequest_eq_mergeRequests]⟩
  · exact ⟨0, requests, rfl⟩

/-- Inside a COMPILE, an operation that leaves the COMPILE open ended without a fault: fatal entry closes it (R229). -/
theorem ok_of_buildStep_building {op : State → Except Diagnostic State} {s : State} (hs : s.cst = .building)
    (ht : (buildStep op s).cst = .building) : op s = .ok (buildStep op s) := by
  rcases buildStep_cases op s with ⟨hc, -⟩ | ⟨-, t, hok, he⟩ | ⟨-, d, -, he⟩
  · exact absurd hs hc
  · rw [he, hok]
  · rw [he, raise_cst] at ht
    cases ht

/-- An OR keeps every bit that was set. -/
theorem and_or_self_left (v w : PulseWord) : v &&& (v ||| w) = v := by
  ext b
  simpa using Or.inl

/-- An OR with a word that is clear under a mask changes no bit under the mask. -/
theorem or_and_of_clear {v w mask : PulseWord} (h : w &&& mask = 0#32) : (v ||| w) &&& mask = v &&& mask := by
  rw [BitVec.and_or_distrib_right, h, BitVec.or_zero]

/-- Settles O15: every slot takes one OR with a word that is clear outside the lane. -/
theorem mergesStayInTheirLane : Obligations.MergesStayInTheirLane := by
  intro s t c index n k d requests i hs ht hi h u
  obtain ⟨first, merged, hexec⟩ := exec_merge_eq hi s
  rw [hexec] at h
  cases h
  have hmerge := ok_of_buildStep_building hs ht
  rw [slot_of_mergeRequests hmerge]
  refine ⟨and_or_self_left _ _, or_and_of_clear ?_⟩
  split
  · exact contribution_outside_lane c merged _
  · exact BitVec.zero_and

end Sys2Proof.Machine
end

section
/-! Formats and packets (30_encoding.md): the parser is the grammar (R91 to R94), the decoder undoes the encoder (R99,
R103, R104), and what is no instruction is rejected by name (R97, R100). -/

namespace Sys2Proof.Machine

/-! ## Digit runs (R93) -/

theorem IsDigitRun.zero_cons {run : Text} (h : IsDigitRun run) : IsDigitRun ('0' :: run) :=
  ⟨List.cons_ne_nil _ _, List.forall_mem_cons.2 ⟨by decide, h.2⟩⟩

theorem IsDigitRun.length_pos {run : Text} (h : IsDigitRun run) : 0 < run.length :=
  List.length_pos_of_ne_nil h.1

/-- A text that is all digits is one field: nothing is left of it. -/
theorem takeDigits_of_isDigitRun {run : Text} (h : IsDigitRun run) : takeDigits run = some (decimal run, []) := by
  simpa using takeDigits_append h (rest := []) (by simp)

/-- Settles O3: the left-to-right reading is the sum of R93, and a leading zero adds nothing to it. -/
theorem digitRunsAreDecimal : Obligations.DigitRunsAreDecimal := by
  intro run hrun
  rw [takeDigits_of_isDigitRun hrun, takeDigits_of_isDigitRun hrun.zero_cons, decimal_zero_cons,
    decimal_eq_positional]
  exact ⟨rfl, rfl⟩

/-! ## The parser and the grammar (R91, R94) -/

/-- A text of the grammar parses to its fields: each field ends where the next marker begins. -/
theorem parse_motionText (a d : Bool) {s v : Text} (hs : IsDigitRun s) (hv : IsDigitRun v) :
    parse (motionText a s d v) = some ⟨a, decimal s, d, decimal v⟩ := by
  have hsteps (rest : Text) : takeDigits (s ++ '_' :: rest) = some (decimal s, '_' :: rest) :=
    takeDigits_append hs (by simp [isDigit])
  have hbit (b : Bool) (rest : Text) : takeBit ((if b then '1' else '0') :: rest) = some (b, rest) :=
    takeBit_eq_some.2 rfl
  simp [motionText_eq, parse, dropMarker, hbit, hsteps, takeDigits_of_isDigitRun hv]

/-- Only texts of the grammar parse: put together again, the fields that were read are the text. -/
theorem exists_motionText_of_parse {text : Text} {m : MotionRequest} (h : parse text = some m) :
    ∃ s v, IsDigitRun s ∧ IsDigitRun v ∧ text = motionText m.action s m.direction v ∧
      m.steps = decimal s ∧ m.speedFactor = decimal v := by
  simp only [parse, Option.bind_eq_bind, Option.bind_eq_some_iff, Prod.exists, dropMarker_eq_some,
    takeBit_eq_some] at h
  obtain ⟨_, rfl, a, _, rfl, _, rfl, n, _, hn, _, rfl, d, _, rfl, _, rfl, k, rest, hk, hend⟩ := h
  obtain ⟨s, hs, rfl, rfl⟩ := takeDigits_eq_some hn
  obtain ⟨v, hv, rfl, rfl⟩ := takeDigits_eq_some hk
  split at hend
  · next hrest =>
    cases hend
    exact ⟨s, v, hs, hv, by simp [motionText_eq, hrest], rfl, rfl⟩
  · cases hend

theorem parse_eq_some_iff_readsAs (text : Text) (m : MotionRequest) : parse text = some m ↔ ReadsAs text m := by
  constructor
  · intro h
    simpa only [ReadsAs, decimal_eq_positional] using exists_motionText_of_parse h
  · rintro ⟨s, v, hs, hv, rfl, hsteps, hspeed⟩
    rw [parse_motionText _ _ hs hv, decimal_eq_positional, decimal_eq_positional, ← hsteps, ← hspeed]

theorem length_motionText (a d : Bool) (s v : Text) : (motionText a s d v).length = 9 + s.length + v.length := by
  simp only [motionText, List.length_append, List.length_cons, List.length_nil]
  omega

/-- Nine characters of a text are fixed in place, and each of its two digit runs has at least one (R91). -/
theorem eleven_le_length_of_parse {text : Text} {m : MotionRequest} (h : parse text = some m) : 11 ≤ text.length := by
  obtain ⟨s, v, hs, hv, rfl, -, -⟩ := exists_motionText_of_parse h
  have hspos := hs.length_pos
  have hvpos := hv.length_pos
  rw [length_motionText]
  omega

/-- Settles O2. -/
theorem parserAcceptsTheGrammar : Obligations.ParserAcceptsTheGrammar :=
  ⟨parse_eq_some_iff_readsAs, fun _ _ => eleven_le_length_of_parse, by decide⟩

/-! ## The canonical text (R103) -/

/-- The canonical text of a request reads as the request. -/
theorem parse_serialise (m : MotionRequest) : parse (serialise m) = some m := by
  rw [serialise_eq, parse_motionText _ _ (dec_isDigitRun _) (dec_isDigitRun _), decimal_dec, decimal_dec]

/-- Settles O5: a run without a leading zero is the numeral of its value. -/
theorem serialiseInvertsParse : Obligations.SerialiseInvertsParse := by
  intro a d s v hs hv hs0 hv0
  refine ⟨_, parse_motionText a d hs hv, ?_⟩
  rw [serialise_eq, dec_decimal hs hs0, dec_decimal hv hv0]

/-! ## Packets (R99, R104) -/

theorem decodeChannel_val (c : Channel) : decodeChannel c.val = .ok c :=
  dif_pos c.isLt

theorem decode_motion_of_parse (c : Channel) (index : Nat) {text : Text} {m : MotionRequest}
    (h : parse text = some m) : decode (.motion c.val index text) = .ok (motionInstr ⟨c, index⟩ m) := by
  simp only [decode, decodeMotion, decodeChannel_val, h]

theorem decode_motion_of_parse_eq_none (c : Channel) (index : Nat) {text : Text} (h : parse text = none) :
    decode (.motion c.val index text) = .error (.grammar ⟨c, index⟩ text) := by
  simp only [decode, decodeMotion, decodeChannel_val, h]

theorem decode_pulseFor (c : Channel) (d a : Bool) :
    decode (.command (.pulseFor c.val d a)) = .ok (.pulseFor c d a) := by
  simp only [decode, decodeCommand, decodeChannel_val, Except.map]

theorem decode_mergeChannel (c : Channel) (requests : List MotionRequest) :
    decode (.command (.mergeChannel c.val requests)) = .ok (.mergeChannel c requests) := by
  simp only [decode, decodeCommand, decodeChannel_val, Except.map]

/-- A plan is taken exactly when it is a mapping (R97). -/
theorem decode_compile (p : Plan) :
    decode (.command (.compile p)) = if p.wellFormed then .ok (.compile p) else .error .notAMapping := rfl

/-- Settles O1: a motion instruction comes back through its canonical text, a channel through its number, and a plan
because it is a mapping; the other commands carry nothing to check. -/
theorem decodeInvertsEncode : Obligations.DecodeInvertsEncode := by
  intro i hwf
  cases i with
  | move site n d k => exact decode_motion_of_parse site.channel site.index (parse_serialise ⟨true, n, d, k⟩)
  | hold site n d k => exact decode_motion_of_parse site.channel site.index (parse_serialise ⟨false, n, d, k⟩)
  | compile plan => exact (decode_compile plan).trans (if_pos hwf)
  | pulseFor c d a => exact decode_pulseFor c d a
  | mergeChannel c requests => exact decode_mergeChannel c requests
  | reset | parse | start | stop | replayOnce | replayLoop | replay | pEnqueue | cEmitA | cEmitB => rfl

/-! ## The texts that the spec writes out (R100, P1) -/

/-- Settles O7: the parser runs on each text. -/
theorem writtenTextsDecode : Obligations.WrittenTextsDecode :=
  ⟨decode_motion_of_parse 3 1 (m := ⟨true, 200, false, 3⟩) (by decide),
    decode_motion_of_parse 7 0 (m := ⟨false, 5, true, 2⟩) (by decide),
    decode_motion_of_parse 0 0 (m := ⟨true, 10, true, 0⟩) (by decide), by decide⟩

/-- Settles O8: the parser runs on each text, and the decoder rejects what it does not read. -/
theorem listedIllegalTextsAreRejected : Obligations.ListedIllegalTextsAreRejected := by
  intro text htext
  have hparse : parse text.toList = none := by
    revert text
    decide
  exact ⟨hparse, decode_motion_of_parse_eq_none 0 0 hparse⟩

/-! ## What is no command (R97, R104) -/

/-- Outside a COMPILE an operation that stands inside it does nothing. -/
theorem buildStep_of_not_building (op : State → Except Diagnostic State) {s : State} (h : s.cst ≠ .building) :
    buildStep op s = s := by
  rcases buildStep_cases op s with ⟨-, he⟩ | ⟨hc, -⟩ | ⟨hc, -⟩
  · exact he
  · exact absurd hc h
  · exact absurd hc h

/-- Settles O21: all three operations are merges inside a COMPILE. -/
theorem buildOperationsNeedACompile : Obligations.BuildOperationsNeedACompile := by
  intro s c index n k d requests hc
  have held {i : Instr}
      (hi : i = .move ⟨c, index⟩ n d k ∨ i = .hold ⟨c, index⟩ n d k ∨ i = .mergeChannel c requests) :
      exec i s = .next s := by
    obtain ⟨first, merged, hexec⟩ := exec_merge_eq hi s
    rw [hexec, buildStep_of_not_building _ hc]
  exact ⟨held (.inl rfl), held (.inr (.inl rfl)), held (.inr (.inr rfl))⟩

/-- With a packet that is no instruction, a step under any schedule rejects it, the packet taken off the script. -/
theorem stepUnder_of_decode_error {schedule : Nat → Agent} {s : State} {p : Packet} {rest : List Packet}
    {e : DecodeError} (hscript : s.inbox = p :: rest) (hdecode : decode p = .error e) :
    stepUnder schedule s = rejectPacket e { s with inbox := rest } := by
  simp only [stepUnder, hscript, hdecode]

theorem Plan.wellFormed_iff (p : Plan) : p.wellFormed = true ↔ (p.channels.map Prod.fst).Nodup :=
  decide_eq_true_iff

/-- Settles O59: the decoder answers that the plan is no mapping, and the step refuses by that name. -/
theorem stepRefusesAPlanNamingAnIdTwice : Obligations.StepRefusesAPlanNamingAnIdTwice := by
  intro s p rest hscript hdup
  have hdecode : decode (.command (.compile p)) = .error .notAMapping :=
    (decode_compile p).trans (if_neg (mt (Plan.wellFormed_iff p).1 hdup))
  exact stepUnder_of_decode_error hscript hdecode

end Sys2Proof.Machine
end

section
/-! The parser (40_parser.md): PARSE answers the grammar's reading of a text or the text itself (R120, R122),
and canonical texts keep their requests apart (R126). -/

namespace Sys2Proof.Machine

/-! ## Canonical texts (R126) -/

/-- The parser is a left inverse of the serialiser, so two canonical texts that parse alike come from one request. -/
theorem serialise_eq_of_parse_eq {m m' : MotionRequest} (h : parse (serialise m) = parse (serialise m')) :
    serialise m = serialise m' := by
  rw [parse_serialise, parse_serialise, Option.some_inj] at h
  rw [h]

/-- Settles O4. -/
theorem parseInvertsSerialise : Obligations.ParseInvertsSerialise :=
  ⟨parse_serialise, fun _ _ => serialise_eq_of_parse_eq⟩

/-! ## What PARSE returns (R120, R122) -/

/-- PARSE answers a next state in which only the returned value is new. -/
theorem exec_parse (text : Text) (s : State) : exec (.parse text) s = .next { s with ret := parseResult text } := rfl

/-- The parser reads nothing exactly where the grammar reads nothing. -/
theorem parse_eq_none_iff (text : Text) : parse text = none ↔ ¬ ∃ m, ReadsAs text m := by
  simp only [Option.eq_none_iff_forall_ne_some, ne_eq, parse_eq_some_iff_readsAs, not_exists]

theorem parseResult_of_readsAs {text : Text} {m : MotionRequest} (h : ReadsAs text m) :
    parseResult text = .request m := by
  rw [parseResult, (parse_eq_some_iff_readsAs text m).2 h]

theorem parseResult_of_not_readsAs {text : Text} (h : ¬ ∃ m, ReadsAs text m) :
    parseResult text = .parseFailed text := by
  rw [parseResult, (parse_eq_none_iff text).2 h]

/-- Settles O6: the returned value is the request or the text, by whether the grammar reads the text. -/
theorem parseReturnsRequestOrOffendingText : Obligations.ParseReturnsRequestOrOffendingText := by
  intro text s
  constructor
  · intro m hreads
    rw [exec_parse, parseResult_of_readsAs hreads]
  · intro hnone
    rw [exec_parse, parseResult_of_not_readsAs hnone]

end Sys2Proof.Machine
end

section
/-! The pin map (41_pinmap.md): the bits of PULSE_FOR (R140, R141), the lane laws (R144), and that a lane of a compiled
Timeline comes from its own channel's list (R146, R169). -/

namespace Sys2Proof.Machine

/-! ## The bits of PULSE_FOR (R140, R141) -/

/-- PULSE_FOR answers a next state in which only the returned word is new. -/
theorem exec_pulseFor (c : Channel) (d a : Bool) (s : State) :
    exec (.pulseFor c d a) s = .next { s with ret := .pulse (pulseFor c d a) } := rfl

/-- A Boolean shifted to position `k` of a half-word stands there and nowhere else. -/
theorem getLsbD_boolHalf_shiftLeft (v : Bool) (k : Nat) (b : Fin 16) :
    (boolHalf v <<< k).getLsbD b.val = (v && decide (b.val = k)) := by
  rw [BitVec.getLsbD_shiftLeft, boolHalf, BitVec.getLsbD_setWidth, BitVec.getLsbD_ofBool]
  rcases lt_trichotomy b.val k with hlt | heq | hgt
  · simp [hlt, hlt.ne]
  · subst heq
    simp
  · have hpos : b.val - k ≠ 0 := by omega
    simp [hpos, hgt.ne']

theorem getLsbD_phaseA_pulseFor (c : Channel) (d a : Bool) (b : Fin 16) :
    (phaseA (pulseFor c d a)).getLsbD b.val =
      ((d && decide (b.val = dirBit c)) || (a && decide (b.val = stepBit c))) := by
  rw [pulseFor, pulseWord, phaseA_append, BitVec.getLsbD_or, getLsbD_boolHalf_shiftLeft, getLsbD_boolHalf_shiftLeft]

theorem getLsbD_phaseB_pulseFor (c : Channel) (d a : Bool) (b : Fin 16) :
    (phaseB (pulseFor c d a)).getLsbD b.val = (d && decide (b.val = dirBit c)) := by
  rw [pulseFor, pulseWord, phaseB_append, getLsbD_boolHalf_shiftLeft]

/-- Settles O13. -/
theorem pulseForSetsDirectionAndStep : Obligations.PulseForSetsDirectionAndStep :=
  fun c d a s => ⟨pulseFor c d a, exec_pulseFor c d a s,
    fun b => ⟨getLsbD_phaseA_pulseFor c d a b, getLsbD_phaseB_pulseFor c d a b⟩⟩

/-! ## The lane laws (R144) -/

/-- A word that is clear outside a mask lies within it. -/
theorem and_eq_self_of_clear_outside {w mask : PulseWord} (h : w &&& ~~~mask = 0#32) : w &&& mask = w := by
  calc w &&& mask = w &&& mask ||| w &&& ~~~mask := by rw [h, BitVec.or_zero]
    _ = w := by rw [← BitVec.and_or_distrib_left, BitVec.or_not_self, BitVec.and_allOnes]

theorem laneMask_disjoint {c c' : Channel} (h : c ≠ c') :
    (laneMask c ++ laneMask c) &&& (laneMask c' ++ laneMask c') = 0#32 := by
  revert c c'; decide

/-- Each word lies within the mask of its channel's lane, and the masks of two channels share no bit. -/
theorem pulseFor_and_pulseFor_of_ne {c c' : Channel} (h : c ≠ c') (d a d' a' : Bool) :
    pulseFor c d a &&& pulseFor c' d' a' = 0#32 := by
  rw [← and_eq_self_of_clear_outside (pulseFor_outside_lane c d a),
    ← and_eq_self_of_clear_outside (pulseFor_outside_lane c' d' a'),
    BitVec.and_comm (pulseFor c' d' a'), BitVec.and_assoc, ← BitVec.and_assoc (laneMask c ++ laneMask c),
    laneMask_disjoint h, BitVec.zero_and, BitVec.and_zero]

/-- In its own lane a word has the step bit clear in phase B, and one direction bit in both phases. -/
theorem pulseFor_releases_step_holds_direction (c : Channel) (d a : Bool) :
    stepB c (pulseFor c d a) = false ∧ dirB c (pulseFor c d a) = dirA c (pulseFor c d a) := by
  have hlane := lane_pulseFor c d a
  simp only [lane, Prod.mk.injEq] at hlane
  obtain ⟨hdirA, -, hdirB, hstepB⟩ := hlane
  exact ⟨hstepB, hdirB.trans hdirA.symm⟩

/-- Settles O14. -/
theorem laneLaws : Obligations.LaneLaws :=
  fun c _ d a d' a' => ⟨pulseFor_outside_lane c d a, fun hne => pulseFor_and_pulseFor_of_ne hne d a d' a',
    baseline_or_action c d a, pulseFor_releases_step_holds_direction c d a⟩

/-! ## The requests that COMPILE merges for a channel -/

theorem planTexts_of_mem {p : Plan} (hwf : p.wellFormed = true) {e : Nat × List Text} (he : e ∈ p.channels) :
    planTexts p e.1 = e.2 := by
  rw [planTexts]
  split
  · next f hf =>
    have hid : f.1 = e.1 := by simpa using List.find?_some hf
    rw [List.inj_on_of_nodup_map ((Plan.wellFormed_iff p).1 hwf) (List.mem_of_find?_eq_some hf) he hid]
  · next hnone => exact absurd (List.find?_eq_none.1 hnone e he) (by simp)

theorem planTexts_of_not_mem {p : Plan} {id : Nat} (h : id ∉ p.channels.map Prod.fst) : planTexts p id = [] := by
  rw [planTexts]
  split
  · next f hf =>
    have hid : f.1 = id := by simpa using List.find?_some hf
    exact absurd (hid ▸ List.mem_map_of_mem (List.mem_of_find?_eq_some hf)) h
  · rfl

/-- A validated plan's requests are its lists read text by text, in another order and with the ids as channels. -/
theorem exists_lists_of_validate {p : Plan} {mode : ReplayMode} {requests : List (Channel × List MotionRequest)}
    (h : validate p = .ok (mode, requests)) :
    ∃ lists : List (Channel × List Text), requests = lists.map (fun e => (e.1, e.2.filterMap parse)) ∧
      (lists.map fun e => (e.1.val, e.2)).Perm p.channels := by
  obtain ⟨-, -, hids, -, lists, hcheck, hparse⟩ := validate_ok_inversion h
  obtain ⟨typed, htyped, hmap⟩ := checkIds_ok (lists := ascending p) fun e he => hids e ((mem_ascending p e).1 he)
  rw [hcheck, Except.ok.injEq] at htyped
  subst htyped
  rw [parseLists_ok (parse_of_parseLists hparse), Except.ok.injEq] at hparse
  exact ⟨lists, hparse.symm, hmap ▸ ascending_perm p⟩

/-- A validated mapping names each channel at most once, and lists under it the requests of the plan. -/
theorem requestsUnder_of_validate {p : Plan} {mode : ReplayMode} {requests : List (Channel × List MotionRequest)}
    (hwf : p.wellFormed = true) (h : validate p = .ok (mode, requests)) :
    (requests.map Prod.fst).Nodup ∧ ∀ c, requestsUnder requests c = planRequests p c := by
  obtain ⟨lists, rfl, hperm⟩ := exists_lists_of_validate h
  have hids : ((lists.map Prod.fst).map Fin.val).Perm (p.channels.map Prod.fst) := by
    simpa [Function.comp_def] using hperm.map Prod.fst
  have hnodup : ((lists.map fun e => (e.1, e.2.filterMap parse)).map Prod.fst).Nodup := by
    simpa [Function.comp_def] using (hids.nodup_iff.2 ((Plan.wellFormed_iff p).1 hwf)).of_map
  refine ⟨hnodup, fun c => ?_⟩
  by_cases hc : c ∈ lists.map Prod.fst
  · obtain ⟨e, he, rfl⟩ := List.mem_map.1 hc
    have hplan : (e.1.val, e.2) ∈ p.channels := hperm.mem_iff.1 (List.mem_map_of_mem he)
    rw [planRequests, planTexts_of_mem hwf hplan]
    exact requestsUnder_of_mem hnodup (List.mem_map_of_mem he)
  · have hplan : c.val ∉ p.channels.map Prod.fst := by
      rwa [← hids.mem_iff, List.mem_map_of_injective Fin.val_injective]
    rw [planRequests, planTexts_of_not_mem hplan]
    exact requestsUnder_of_not_mem (by simpa [Function.comp_def] using hc)

/-! ## The lanes of a compiled Timeline (R146, R169) -/

/-- Merging into the empty Timeline leaves each channel its length as cursor and its contribution as lane. -/
theorem mergeChannels_from_empty {lists : List (Channel × List MotionRequest)} {s t : State}
    (hnodup : (lists.map Prod.fst).Nodup)
    (h : mergeChannels lists { s with cst := .building, tl := [], cur := zeroCursors } = .ok t) (c : Channel) :
    t.cur[c] = channelLength (requestsUnder lists c) ∧
      ∀ u, lane c (slot t.tl u) = lane c (contribution c (requestsUnder lists c) u) := by
  have hzero (c' : Channel) : cursor { s with cst := .building, tl := [], cur := zeroCursors } c' = 0 :=
    zeroCursors_getElem c'
  obtain ⟨t', hok, hcur, -, -, -, hlane⟩ := mergeChannels_of_fits hnodup fun e he => by
    rcases fits_of_mergeChannels hnodup h e he with hnil | hfit
    · rw [hnil, hzero]
      exact fits_zero _
    · exact hfit
  rw [h, Except.ok.injEq] at hok
  subst hok
  refine ⟨(hcur c).trans (by rw [hzero, Nat.zero_add]), fun u => ?_⟩
  rw [hlane c u, slot_of_length_le (Nat.zero_le u), hzero, if_pos (Nat.zero_le u), Nat.sub_zero, BitVec.zero_or]

/-- An accepted COMPILE that ends frozen gives each channel the cursor and the lane that its own requests make. -/
theorem compile_lane {s t : State} {p : Plan} (hwf : p.wellFormed = true) (hacc : AcceptsCompile s)
    (h : exec (.compile p) s = .next t) (hfrozen : t.cst = .frozen) (c : Channel) :
    t.cur[c] = channelLength (planRequests p c) ∧
      ∀ u, lane c (slot t.tl u) = lane c (contribution c (planRequests p c) u) := by
  rw [exec] at h
  rcases execCompile_cases p s with ⟨hrefused, -⟩ | ⟨-, mode, requests, built, hvalid, hmerge, he⟩ | ⟨-, d, -, he⟩
  · exact absurd hacc hrefused
  · obtain ⟨hnodup, hunder⟩ := requestsUnder_of_validate hwf hvalid
    rw [he] at h
    cases h
    rw [← hunder c]
    exact mergeChannels_from_empty hnodup hmerge c
  · rw [he] at h
    cases h
    cases hfrozen

/-- Settles O30: the cursor and the lane are functions of the channel's own requests, which its texts determine. -/
theorem laneDependsOnItsOwnListOnly : Obligations.LaneDependsOnItsOwnListOnly := by
  intro s s' t t' p p' c hwf hwf' htexts hacc hacc' hexec hexec' hfrozen hfrozen'
  obtain ⟨hcur, hlane⟩ := compile_lane hwf hacc hexec hfrozen c
  obtain ⟨hcur', hlane'⟩ := compile_lane hwf' hacc' hexec' hfrozen' c
  have hrequests : planRequests p c = planRequests p' c := by rw [planRequests, planRequests, htexts]
  refine ⟨by rw [hcur, hcur', hrequests], fun u w w' hw hw' => ?_⟩
  rw [← slot_eq_of_getElem? hw, ← slot_eq_of_getElem? hw', hlane, hlane', hrequests]

end Sys2Proof.Machine
end

section
/-! The compiler (42_compiler.md): one request (R154 to R159, R168), the requests of one channel (R153), a whole
COMPILE and its errors (R150, R151, R163 to R167), and that the order of the channels has no part in it (R162). -/

namespace Sys2Proof.Machine

/-! ## Operations inside a COMPILE -/

theorem exec_move (site : Site) (n : Nat) (d : Bool) (k : Nat) (s : State) :
    exec (.move site n d k) s = .next (buildStep (mergeRequest site.channel site.index ⟨true, n, d, k⟩) s) := rfl

theorem exec_hold (site : Site) (n : Nat) (d : Bool) (k : Nat) (s : State) :
    exec (.hold site n d k) s = .next (buildStep (mergeRequest site.channel site.index ⟨false, n, d, k⟩) s) := rfl

theorem exec_mergeChannel (c : Channel) (requests : List MotionRequest) (s : State) :
    exec (.mergeChannel c requests) s = .next (buildStep (mergeRequests c 0 requests) s) := rfl

theorem buildStep_of_ok {op : State → Except Diagnostic State} {s t : State} (hs : s.cst = .building)
    (h : op s = .ok t) : buildStep op s = t := by
  simp [buildStep, insideCompile, hs, h, settle]

theorem buildStep_of_error {op : State → Except Diagnostic State} {s : State} {d : Diagnostic}
    (hs : s.cst = .building) (h : op s = .error d) : buildStep op s = raise d s := by
  simp [buildStep, insideCompile, hs, h, settle]

/-! ## One request (R154 to R156) -/

theorem lane_eq_iff {c : Channel} {w : PulseWord} {a b d e : Bool} :
    lane c w = (a, b, d, e) ↔ dirA c w = a ∧ stepA c w = b ∧ dirB c w = d ∧ stepB c w = e := by
  simp only [lane, Prod.mk.injEq]

theorem lane_or_of_empty {c : Channel} {v : PulseWord} (w : PulseWord)
    (h : lane c v = (false, false, false, false)) : lane c (v ||| w) = lane c w := by
  rw [BitVec.or_comm]
  exact lane_or_of_clear h

/-- In its range a request fills an empty lane of its channel with its direction, and with a step at the stride. -/
theorem lane_mergedTimeline_of_mem {c : Channel} {start : Nat} {r : MotionRequest} {tl : List PulseWord} {u : Nat}
    (h1 : start ≤ u) (h2 : u < start + expandedSteps r) (hempty : lane c (slot tl u) = (false, false, false, false)) :
    lane c (slot (mergedTimeline c start r tl) u) =
      (r.direction, r.action && decide ((u - start) % stride r = 0), r.direction, false) := by
  rw [slot_mergedTimeline, if_pos ⟨h1, h2⟩, lane_or_of_empty _ hempty, lane_pulseFor]

/-- A request leaves the lanes of other channels, and every slot outside its range, as they were. -/
theorem lane_mergedTimeline_of_not_mem {c c' : Channel} {start : Nat} {r : MotionRequest} {u : Nat}
    (tl : List PulseWord) (h : c' ≠ c ∨ u < start ∨ start + expandedSteps r ≤ u) :
    lane c' (slot (mergedTimeline c start r tl) u) = lane c' (slot tl u) := by
  rw [slot_mergedTimeline]
  apply lane_or_of_clear
  split
  · next hin =>
    have hne : c' ≠ c := h.resolve_right (by omega)
    exact lane_pulseFor_ne hne _ _
  · exact lane_zero c'

/-- What MOVE and HOLD share (R155, R156): a request inside a COMPILE, in closed form. -/
theorem buildStep_mergeRequest_closed_form (c : Channel) (index : Nat) (r : MotionRequest) {s : State}
    (hs : s.cst = .building) :
    (Fits s (cursor s c + expandedSteps r) → ∃ tl,
      buildStep (mergeRequest c index r) s =
        { s with tl := tl, cur := s.cur.set c (cursor s c + expandedSteps r) } ∧
      tl.length = max s.tl.length (cursor s c + expandedSteps r) ∧
      (∀ u, cursor s c ≤ u → u < cursor s c + expandedSteps r →
        lane c (slot s.tl u) = (false, false, false, false) →
        lane c (slot tl u) =
          (r.direction, r.action && decide ((u - cursor s c) % stride r = 0), r.direction, false)) ∧
      (∀ u c', c' ≠ c ∨ u < cursor s c ∨ cursor s c + expandedSteps r ≤ u →
        lane c' (slot tl u) = lane c' (slot s.tl u))) ∧
    (¬ Fits s (cursor s c + expandedSteps r) →
      buildStep (mergeRequest c index r) s = fatalState .capacityError 4 ⟨some c.val, some index, none⟩ s) := by
  constructor
  · intro hfit
    exact ⟨mergedTimeline c (cursor s c) r s.tl, buildStep_of_ok hs (mergeRequest_of_fits index hfit),
      mergedTimeline_length _ _ _ _, fun _ => lane_mergedTimeline_of_mem,
      fun _ _ => lane_mergedTimeline_of_not_mem s.tl⟩
  · intro hover
    rw [buildStep_of_error hs (mergeRequest_of_not_fits index hover), raise_eq_fatalState]
    rfl

/-- Settles O16: the closed form of a request whose action bit is set. -/
theorem moveWritesItsPulses : Obligations.MoveWritesItsPulses := by
  intro s c index n d k hs
  simp only [exec_move, Host.Outcome.next.injEq]
  exact buildStep_mergeRequest_closed_form c index ⟨true, n, d, k⟩ hs

/-- Settles O17: the closed form of a request whose action bit is clear. -/
theorem holdKeepsDirectionWithoutPulses : Obligations.HoldKeepsDirectionWithoutPulses := by
  intro s c index n d k hs
  simp only [exec_hold, Host.Outcome.next.injEq]
  exact buildStep_mergeRequest_closed_form c index ⟨false, n, d, k⟩ hs

/-! ### The number of pulses (R159) -/

theorem stepA_or (c : Channel) (v w : PulseWord) : stepA c (v ||| w) = (stepA c v || stepA c w) := by
  simp [stepA]

theorem stepA_pulseFor (c : Channel) (d a : Bool) : stepA c (pulseFor c d a) = a := by
  obtain ⟨-, hstep, -⟩ := lane_eq_iff.1 (lane_pulseFor c d a)
  exact hstep

/-- Among `n` strides of `k` slots, the stride is met `n` times. -/
theorem countP_range_stride (n : Nat) {k : Nat} (hk : 0 < k) :
    ((List.range (n * k)).countP fun o => decide (o % k = 0)) = n := by
  have hcount := Nat.count_modEq_card (n * k) hk 0
  rw [Nat.mul_div_cancel n hk, Nat.mul_mod_left, if_neg (Nat.not_lt_zero _), Nat.add_zero, Nat.count] at hcount
  refine Eq.trans (List.countP_congr fun o _ => ?_) hcount
  rw [decide_eq_true_iff, decide_eq_true_iff, Nat.ModEq, Nat.zero_mod]

/-- Settles O18: in the range of the MOVE the step bit is the one that its own word brings, which is set at the stride. -/
theorem movePulsesExactlyStepsTimes : Obligations.MovePulsesExactlyStepsTimes := by
  intro s t c index n d k hs hclear h ht
  rw [exec_move, mergeRequest_eq_mergeRequests] at h
  cases h
  have hmerge := ok_of_buildStep_building hs ht
  have hstep (o : Nat) (ho : o < n * (1 + k)) :
      stepA c (slot (buildStep (mergeRequests c index [⟨true, n, d, k⟩]) s).tl (cursor s c + o)) =
        decide (o % (1 + k) = 0) := by
    have hin : o < expandedSteps ⟨true, n, d, k⟩ := ho
    rw [slot_of_mergeRequests hmerge, if_pos (Nat.le_add_right _ _), Nat.add_sub_cancel_left, contribution,
      if_pos hin, stepA_or, hclear _ (Nat.le_add_right _ _), stepA_pulseFor]
    rfl
  calc _ = (List.range (n * (1 + k))).countP fun o => decide (o % (1 + k) = 0) :=
        List.countP_congr fun o ho => by rw [hstep o (List.mem_range.1 ho)]
    _ = n := countP_range_stride n (by omega)

/-! ### No steps (R168) -/

theorem expandedSteps_of_zero_steps {r : MotionRequest} (h : r.steps = 0) : expandedSteps r = 0 := by
  rw [expandedSteps, h, Nat.zero_mul]

/-- A request of 0 steps has no slot, and its growth ends at the cursor. -/
theorem mergedTimeline_of_zero_steps {c : Channel} {start : Nat} {r : MotionRequest} {tl : List PulseWord}
    (hr : r.steps = 0) (hstart : start ≤ tl.length) : mergedTimeline c start r tl = tl := by
  apply timeline_ext
  · rw [mergedTimeline_length, expandedSteps_of_zero_steps hr]
    omega
  · intro u
    rw [slot_mergedTimeline, expandedSteps_of_zero_steps hr, if_neg (by omega), BitVec.or_zero]

theorem buildStep_mergeRequest_of_zero_steps {c : Channel} {index : Nat} {r : MotionRequest} {s : State}
    (hs : s.cst = .building) (hr : r.steps = 0) (hcur : cursor s c ≤ s.tl.length) (hcap : Fits s s.tl.length) :
    buildStep (mergeRequest c index r) s = s := by
  have hzero : cursor s c + expandedSteps r = cursor s c := by rw [expandedSteps_of_zero_steps hr, Nat.add_zero]
  have hfit : Fits s (cursor s c + expandedSteps r) := hcap.mono (hzero.trans_le hcur)
  rw [buildStep_of_ok hs (mergeRequest_of_fits index hfit), mergedTimeline_of_zero_steps hr hcur, hzero, cursor]
  rw [show s.cur.set c s.cur[c] = s.cur from Vector.set_getElem_self _]

/-- Settles O20. -/
theorem zeroStepsChangeNothing : Obligations.ZeroStepsChangeNothing := by
  intro s c index k d hs hcur hcap
  rw [exec_move, exec_hold, buildStep_mergeRequest_of_zero_steps hs rfl hcur hcap,
    buildStep_mergeRequest_of_zero_steps hs rfl hcur hcap]
  exact ⟨rfl, rfl⟩

/-! ## The requests of one channel (R153) -/

/-- Settles O19: the contribution of the requests, read at request `j` and outside all of them. -/
theorem mergeChannelAppendsItsRequests : Obligations.MergeChannelAppendsItsRequests := by
  intro s c requests hs
  constructor
  · intro hfit
    obtain ⟨tl, hok, hlen, hslot⟩ := mergeRequests_of_fits c 0 requests s hfit
    refine ⟨tl, by rw [exec_mergeChannel, buildStep_of_ok hs hok], hlen, fun j r o hj ho => ?_, fun u hu => ?_⟩
    · have hrange : requestStart requests j + o < requestStart requests j + expandedSteps r := Nat.add_lt_add_left ho _
      rw [hslot, if_pos (by omega), Nat.add_assoc, Nat.add_sub_cancel_left,
        contribution_of_request c hj (Nat.le_add_right _ _) hrange, Nat.add_sub_cancel_left]
      rfl
    · rw [hslot]
      split
      · rw [contribution_of_length_le c (by omega), BitVec.or_zero]
      · exact BitVec.or_zero
  · intro j hj hfit hover
    rw [exec_mergeChannel, buildStep_of_error hs (mergeRequests_of_overflow c 0 hj hfit hover), raise_eq_fatalState,
      Nat.zero_add]
    rfl

/-! ## The channels of one build (R150, R152) -/

/-- Where the build of a COMPILE begins: an empty Timeline with every cursor at slot 0. -/
def buildStart (s : State) : State :=
  { s with cst := .building, tl := [], cur := zeroCursors }

theorem cursor_buildStart (s : State) (c : Channel) : cursor (buildStart s) c = 0 :=
  zeroCursors_getElem c

theorem fits_buildStart_iff (s : State) (n : Nat) : Fits (buildStart s) n ↔ Fits s n := Iff.rfl

/-- A channel has no requests in a list, or the list holds it with them. -/
theorem requestsUnder_eq_nil_or_mem (lists : List (Channel × List MotionRequest)) (c : Channel) :
    requestsUnder lists c = [] ∨ (c, requestsUnder lists c) ∈ lists := by
  rw [requestsUnder]
  split
  · next e he =>
    have hid : e.1 = c := by simpa using List.find?_some he
    exact .inr (hid ▸ List.mem_of_find?_eq_some he)
  · exact .inl rfl

/-- Channels that fit one by one are built from the empty Timeline. -/
theorem exists_built_of_fits {lists : List (Channel × List MotionRequest)} {s : State}
    (hnodup : (lists.map Prod.fst).Nodup) (hfit : ∀ c, Fits s (channelLength (requestsUnder lists c))) :
    ∃ built, mergeChannels lists (buildStart s) = .ok built := by
  obtain ⟨built, hok, -⟩ := mergeChannels_of_fits (s := buildStart s) hnodup fun e he => by
    rw [cursor_buildStart, Nat.zero_add, ← requestsUnder_of_mem hnodup he]
    exact hfit e.1
  exact ⟨built, hok⟩

/-- If the channels are built from the empty Timeline, each of them fits. -/
theorem fits_of_built {lists : List (Channel × List MotionRequest)} {s built : State}
    (hnodup : (lists.map Prod.fst).Nodup) (h : mergeChannels lists (buildStart s) = .ok built) (c : Channel) :
    Fits s (channelLength (requestsUnder lists c)) := by
  rcases requestsUnder_eq_nil_or_mem lists c with hnil | hmem
  · rw [hnil]
    exact fits_zero s
  · rcases fits_of_mergeChannels hnodup h _ hmem with (hnil : requestsUnder lists c = []) | hfit
    · rw [hnil]
      exact fits_zero s
    · rwa [cursor_buildStart, Nat.zero_add, fits_buildStart_iff] at hfit

/-- The Timeline that is built is as long as the longest channel (R163). -/
theorem length_of_built {lists : List (Channel × List MotionRequest)} {s built : State}
    (hnodup : (lists.map Prod.fst).Nodup) (h : mergeChannels lists (buildStart s) = .ok built) :
    built.tl.length = Finset.univ.sup fun c : Channel => channelLength (requestsUnder lists c) := by
  obtain ⟨t, hok, -, -, hreach, hlen, -⟩ := mergeChannels_of_fits (s := buildStart s) hnodup fun e he => by
    rw [cursor_buildStart, Nat.zero_add, ← requestsUnder_of_mem hnodup he]
    exact fits_of_built hnodup h e.1
  rw [h, Except.ok.injEq] at hok
  subst hok
  simp only [cursor_buildStart, Nat.zero_add] at hreach hlen
  apply le_antisymm
  · rcases hlen with hzero | ⟨e, he, hlast⟩
    · rw [hzero]
      exact Nat.zero_le _
    · rw [hlast, ← requestsUnder_of_mem hnodup he]
      exact Finset.le_sup (f := fun c : Channel => channelLength (requestsUnder lists c)) (Finset.mem_univ e.1)
  · refine Finset.sup_le fun c _ => ?_
    by_cases hnil : requestsUnder lists c = []
    · rw [hnil]
      exact Nat.zero_le _
    · exact hreach _ ((requestsUnder_eq_nil_or_mem lists c).resolve_left hnil) hnil

theorem mergeChannels_append {before : List (Channel × List MotionRequest)} {s t : State}
    (h : mergeChannels before s = .ok t) (after : List (Channel × List MotionRequest)) :
    mergeChannels (before ++ after) s = mergeChannels after t := by
  induction before generalizing s with
  | nil => cases h; rfl
  | cons e rest ih =>
    obtain ⟨c, requests⟩ := e
    rw [mergeChannels] at h
    rw [List.cons_append, mergeChannels]
    split at h
    · next u hu => exact ih h
    · cases h

/-- Where the channels before one fit, the first request of that one that does not is the CapacityError. -/
theorem mergeChannels_of_overflow {before after : List (Channel × List MotionRequest)} {c : Channel}
    {requests : List MotionRequest} {j : Nat} {s : State} (hnodup : (before.map Prod.fst).Nodup)
    (hc : c ∉ before.map Prod.fst) (hbefore : ∀ e ∈ before, Fits s (cursor s e.1 + channelLength e.2))
    (hj : j < requests.length) (hfit : j = 0 ∨ Fits s (cursor s c + requestStart requests j))
    (hover : ¬ Fits s (cursor s c + requestStart requests (j + 1))) :
    mergeChannels (before ++ (c, requests) :: after) s = .error (capacityDiagnostic c j) := by
  obtain ⟨t, hok, hcur, -⟩ := mergeChannels_of_fits hnodup hbefore
  have hcfg : t.cfg = s.cfg := by rw [mergeChannels_frame hok]
  have hcursor : cursor t c = cursor s c := by rw [hcur, requestsUnder_of_not_mem hc, channelLength_nil, Nat.add_zero]
  rw [← hcursor] at hfit hover
  have herror := mergeRequests_of_overflow c 0 hj (hfit.imp_right fun h => h.congr hcfg)
    (mt (fun h => h.congr hcfg.symm) hover)
  rw [mergeChannels_append hok, mergeChannels, herror, Nat.zero_add]

/-! ## COMPILE (R150, R151) -/

theorem exec_compile_of_refused {p : Plan} {s : State} (h : ¬ AcceptsCompile s) : exec (.compile p) s = .next s := by
  rw [exec]
  rcases execCompile_cases p s with ⟨-, he⟩ | ⟨hacc, -⟩ | ⟨hacc, -⟩
  · exact he
  · exact absurd hacc h
  · exact absurd hacc h

/-- Settles O23. -/
theorem compileIsRefusedWhenFaultedOrReplaying : Obligations.CompileIsRefusedWhenFaultedOrReplaying := by
  intro s p h
  apply exec_compile_of_refused
  rintro ⟨hfault, hrst⟩
  exact h.elim (absurd hfault) (absurd hrst)

theorem exec_compile_of_accepted {p : Plan} {s : State} (h : AcceptsCompile s) :
    exec (.compile p) s = .next (settle s (compileBody p { s with cst := .building })) := by
  obtain ⟨hfault, hrst⟩ := h
  simp [exec, execCompile, compileAccepted, faulted, replayBusy, hfault, hrst]

theorem compileBody_of_validate {p : Plan} {mode : ReplayMode} {requests : List (Channel × List MotionRequest)}
    (h : validate p = .ok (mode, requests)) (s : State) :
    compileBody p { s with cst := .building } = (mergeChannels requests (buildStart s)).map fun built =>
      { built with mode := mode, channelCount := p.channels.length, cst := .frozen } := by
  rw [compileBody, h]
  rfl

/-- An accepted COMPILE of a plan that passes the validation freezes what its channels build (R165). -/
theorem exec_compile_of_built {p : Plan} {mode : ReplayMode} {requests : List (Channel × List MotionRequest)}
    {s built : State} (hacc : AcceptsCompile s) (hvalid : validate p = .ok (mode, requests))
    (hbuilt : mergeChannels requests (buildStart s) = .ok built) :
    exec (.compile p) s =
      .next { built with mode := mode, channelCount := p.channels.length, cst := .frozen } := by
  rw [exec_compile_of_accepted hacc, compileBody_of_validate hvalid, hbuilt]
  rfl

/-- An accepted COMPILE of a plan that passes the validation ends in fatal entry where its build fails (R229). -/
theorem exec_compile_of_build_error {p : Plan} {mode : ReplayMode} {requests : List (Channel × List MotionRequest)}
    {s : State} {d : Diagnostic} (hacc : AcceptsCompile s) (hvalid : validate p = .ok (mode, requests))
    (herror : mergeChannels requests (buildStart s) = .error d) : exec (.compile p) s = .next (raise d s) := by
  rw [exec_compile_of_accepted hacc, compileBody_of_validate hvalid, herror]
  rfl

/-! ### What passes the validation (R228) -/

theorem exists_validate_eq_ok {p : Plan} {m : ReplayMode} (hcount : p.channels.length ≤ 8) (hmode : p.mode = .known m)
    (hids : ∀ e ∈ p.channels, e.1 ≤ 7) (hgrammar : ∀ e ∈ p.channels, ∀ text ∈ e.2, ∃ r, parse text = some r) :
    ∃ requests, validate p = .ok (m, requests) := by
  obtain ⟨lists, hcheck, hmap⟩ := checkIds_ok (lists := ascending p) fun e he => hids e ((mem_ascending p e).1 he)
  have hparse (e : Channel × List Text) (he : e ∈ lists) : ∀ text ∈ e.2, ∃ r, parse text = some r := by
    have hmem : (e.1.val, e.2) ∈ ascending p := hmap ▸ List.mem_map_of_mem he
    exact hgrammar _ ((mem_ascending p _).1 hmem)
  exact ⟨_, validate_of_ok hcount hmode hcheck (parseLists_ok hparse)⟩

/-- COMPILE merges the channels of a mapping in ascending id (R150). -/
theorem requests_ascending_of_validate {p : Plan} {mode : ReplayMode} {requests : List (Channel × List MotionRequest)}
    (hwf : p.wellFormed = true) (h : validate p = .ok (mode, requests)) :
    requests.Pairwise fun e f => e.1 < f.1 := by
  obtain ⟨hnodup, -⟩ := requestsUnder_of_validate hwf h
  obtain ⟨-, -, hids, -, lists, hcheck, hparse⟩ := validate_ok_inversion h
  obtain ⟨typed, htyped, hmap⟩ := checkIds_ok (lists := ascending p) fun e he => hids e ((mem_ascending p e).1 he)
  rw [hcheck, Except.ok.injEq] at htyped
  subst htyped
  rw [parseLists_ok (parse_of_parseLists hparse), Except.ok.injEq] at hparse
  have hsorted : requests.Pairwise fun e f => e.1 ≤ f.1 := by
    have hids := ascending_sorted p
    rw [← hmap, List.pairwise_map] at hids
    rw [← hparse, List.pairwise_map]
    exact hids
  exact hsorted.and (List.pairwise_map.1 hnodup) |>.imp fun h => lt_of_le_of_ne h.1 h.2

/-- A mapping that passes the validation and is built has none of the errors of R228. -/
theorem buildable_of_built {p : Plan} {mode : ReplayMode} {requests : List (Channel × List MotionRequest)}
    {s built : State} (hwf : p.wellFormed = true) (hvalid : validate p = .ok (mode, requests))
    (hbuilt : mergeChannels requests (buildStart s) = .ok built) : Buildable p mode s := by
  obtain ⟨hcount, hmode, hids, hgrammar, -⟩ := validate_ok_inversion hvalid
  obtain ⟨hnodup, hunder⟩ := requestsUnder_of_validate hwf hvalid
  exact ⟨hwf, hcount, hmode, hids, hgrammar, fun c => hunder c ▸ fits_of_built hnodup hbuilt c⟩

/-- Settles O28: the two ends of an accepted COMPILE. -/
theorem compileIsAllOrNothing : Obligations.CompileIsAllOrNothing := by
  intro s p hacc
  rw [exec]
  rcases execCompile_cases p s with ⟨hrefused, -⟩ | ⟨-, mode, requests, built, hvalid, hbuilt, he⟩ | ⟨-, d, hd, he⟩
  · exact absurd hacc hrefused
  · have hfault : built.fault = .noFault := by
      rw [mergeChannels_frame hbuilt]
      exact hacc.1
    exact ⟨_, he, .inl ⟨rfl, hfault, rfl, fun hwf => ⟨mode, buildable_of_built hwf hvalid hbuilt⟩⟩⟩
  · exact ⟨_, he, .inr ⟨d.code, d.info, compileBody_error_code hd, raise_eq_fatalState d s⟩⟩

/-! ### The Timeline that is built (R163, R164) -/

/-- Settles O22: length and cursors by the merge, and each lane is what its own requests contribute. -/
theorem compileBuildsTheTimeline : Obligations.CompileBuildsTheTimeline := by
  intro s p m hacc hp
  obtain ⟨requests, hvalid⟩ := exists_validate_eq_ok hp.count hp.mode hp.ids hp.grammar
  obtain ⟨hnodup, hunder⟩ := requestsUnder_of_validate hp.mapping hvalid
  obtain ⟨built, hbuilt⟩ := exists_built_of_fits hnodup fun c => (hunder c).symm ▸ hp.capacity c
  have hexec := exec_compile_of_built hacc hvalid hbuilt
  have hlane := compile_lane hp.mapping hacc hexec rfl
  refine ⟨built.tl, built.cur, ?_, ?_, fun c => (hlane c).1, fun c j r u w hj h1 h2 hw => ?_, fun c u w hu hw => ?_⟩
  · rw [hexec, mergeChannels_frame hbuilt]
    rfl
  · simpa only [hunder] using length_of_built hnodup hbuilt
  · rw [← lane_eq_iff, ← slot_eq_of_getElem? hw, (hlane c).2, contribution_of_request c hj h1 h2]
    exact lane_pulseFor c _ _
  · rw [← slot_eq_of_getElem? hw, (hlane c).2, contribution_of_length_le c hu]
    exact lane_zero c

/-! ### The first overflow (R167, R224) -/

/-- Settles O27: the channels before the one that overflows have smaller ids, so they are built, and the merge of its
own requests then stops at the first that does not fit. -/
theorem compileReportsTheFirstOverflow : Obligations.CompileReportsTheFirstOverflow := by
  intro s p m c j hacc hwf hcount hmode hids hgrammar hsmaller hj hfit hover
  obtain ⟨requests, hvalid⟩ := exists_validate_eq_ok hcount hmode hids hgrammar
  obtain ⟨hnodup, hunder⟩ := requestsUnder_of_validate hwf hvalid
  have hmem : (c, planRequests p c) ∈ requests := by
    rw [← hunder] at hj ⊢
    refine (requestsUnder_eq_nil_or_mem requests c).resolve_left fun hnil => ?_
    rw [hnil] at hj
    exact Nat.not_lt_zero j hj
  obtain ⟨before, after, rfl⟩ := List.append_of_mem hmem
  obtain ⟨-, -, hsplit⟩ := List.pairwise_append.1 (requests_ascending_of_validate hwf hvalid)
  have hlt (e : Channel × List MotionRequest) (he : e ∈ before) : e.1 < c := hsplit e he _ List.mem_cons_self
  have hbefore (e : Channel × List MotionRequest) (he : e ∈ before) : Fits s (channelLength e.2) := by
    rw [← requestsUnder_of_mem hnodup (List.mem_append_left _ he), hunder]
    exact hsmaller e.1 (hlt e he)
  have herror : mergeChannels (before ++ (c, planRequests p c) :: after) (buildStart s) =
      .error (capacityDiagnostic c j) := by
    apply mergeChannels_of_overflow
    · exact hnodup.sublist ((List.sublist_append_left _ _).map _)
    · intro hc
      obtain ⟨e, he, hec⟩ := List.mem_map.1 hc
      exact absurd hec (hlt e he).ne
    · simpa only [cursor_buildStart, Nat.zero_add, fits_buildStart_iff] using hbefore
    · exact hj
    · simpa only [cursor_buildStart, Nat.zero_add, fits_buildStart_iff] using hfit
    · simpa only [cursor_buildStart, Nat.zero_add, fits_buildStart_iff] using hover
  rw [exec_compile_of_build_error hacc hvalid herror, raise_eq_fatalState]
  rfl

/-! ## The order of the channels (R162, D30) -/

theorem mergedTimeline_comm (c c' : Channel) (start start' : Nat) (r r' : MotionRequest) (tl : List PulseWord) :
    mergedTimeline c start r (mergedTimeline c' start' r' tl) =
      mergedTimeline c' start' r' (mergedTimeline c start r tl) := by
  apply timeline_ext
  · simp only [mergedTimeline_length]
    exact Nat.max_right_comm _ _ _
  · intro u
    simp only [slot_mergedTimeline]
    ac_rfl

/-- Requests on two channels may be merged in either order: each has its own cursor, and the ORs commute. -/
theorem mergeRequest_comm {c c' : Channel} (hne : c ≠ c') {index index' : Nat} {r r' : MotionRequest} {s t u : State}
    (h : mergeRequest c index r s = .ok t) (h' : mergeRequest c' index' r' t = .ok u) :
    ∃ v, mergeRequest c' index' r' s = .ok v ∧ mergeRequest c index r v = .ok u := by
  rcases mergeRequest_cases c index r s with ⟨hfit, he⟩ | ⟨-, he⟩ <;> rw [he] at h <;> cases h
  rcases mergeRequest_cases c' index' r' _ with ⟨hfit', he'⟩ | ⟨-, he'⟩ <;> rw [he'] at h' <;> cases h'
  rw [cursor_set_ne hne.symm] at hfit'
  refine ⟨_, mergeRequest_of_fits index' hfit', ?_⟩
  have hval : c.val ≠ c'.val := Fin.val_ne_of_ne hne
  rw [mergeRequest_of_fits index (by rw [cursor_set_ne hne]; exact hfit)]
  simp only [cursor_set_ne hne, cursor_set_ne hne.symm, mergedTimeline_comm c' c, Vector.set_comm _ _ hval]

theorem mergeRequests_cons_eq_ok_iff {c : Channel} {index : Nat} {r : MotionRequest} {rest : List MotionRequest}
    {s u : State} : mergeRequests c index (r :: rest) s = .ok u ↔
      ∃ t, mergeRequest c index r s = .ok t ∧ mergeRequests c (index + 1) rest t = .ok u := by
  rw [mergeRequests]
  cases mergeRequest c index r s <;> simp

theorem mergeChannels_cons_eq_ok_iff {c : Channel} {requests : List MotionRequest}
    {rest : List (Channel × List MotionRequest)} {s u : State} : mergeChannels ((c, requests) :: rest) s = .ok u ↔
      ∃ t, mergeRequests c 0 requests s = .ok t ∧ mergeChannels rest t = .ok u := by
  rw [mergeChannels]
  cases mergeRequests c 0 requests s <;> simp

/-- A request may be merged after the requests of another channel instead of before them. -/
theorem mergeRequest_mergeRequests_comm {c c' : Channel} (hne : c ≠ c') {index index' : Nat} {r : MotionRequest}
    {requests : List MotionRequest} {s t u : State} (h : mergeRequest c index r s = .ok t)
    (h' : mergeRequests c' index' requests t = .ok u) :
    ∃ v, mergeRequests c' index' requests s = .ok v ∧ mergeRequest c index r v = .ok u := by
  induction requests generalizing index' s t with
  | nil => cases h'; exact ⟨s, rfl, h⟩
  | cons r' rest ih =>
    obtain ⟨w, hw, hrest⟩ := mergeRequests_cons_eq_ok_iff.1 h'
    obtain ⟨v, hv, hvw⟩ := mergeRequest_comm hne h hw
    obtain ⟨x, hx, hxu⟩ := ih hvw hrest
    exact ⟨x, mergeRequests_cons_eq_ok_iff.2 ⟨v, hv, hx⟩, hxu⟩

/-- The requests of two channels may be merged in either order. -/
theorem mergeRequests_comm {c c' : Channel} (hne : c ≠ c') {index index' : Nat} {requests requests' : List MotionRequest}
    {s t u : State} (h : mergeRequests c index requests s = .ok t) (h' : mergeRequests c' index' requests' t = .ok u) :
    ∃ v, mergeRequests c' index' requests' s = .ok v ∧ mergeRequests c index requests v = .ok u := by
  induction requests generalizing index s with
  | nil => cases h; exact ⟨u, h', rfl⟩
  | cons r rest ih =>
    obtain ⟨w, hw, hrest⟩ := mergeRequests_cons_eq_ok_iff.1 h
    obtain ⟨x, hx, hxu⟩ := ih hrest
    obtain ⟨v, hv, hvx⟩ := mergeRequest_mergeRequests_comm hne hw hx
    exact ⟨v, hv, mergeRequests_cons_eq_ok_iff.2 ⟨x, hvx, hxu⟩⟩

/-- Channels merged in another order build the same: neighbours swap. -/
theorem mergeChannels_perm {lists lists' : List (Channel × List MotionRequest)} (hperm : lists.Perm lists')
    (hnodup : (lists.map Prod.fst).Nodup) {s t : State} (h : mergeChannels lists s = .ok t) :
    mergeChannels lists' s = .ok t := by
  induction hperm generalizing s with
  | nil => exact h
  | cons e _ ih =>
    obtain ⟨u, hu, hrest⟩ := mergeChannels_cons_eq_ok_iff.1 h
    rw [List.map_cons, List.nodup_cons] at hnodup
    exact mergeChannels_cons_eq_ok_iff.2 ⟨u, hu, ih hnodup.2 hrest⟩
  | swap e f rest =>
    have hne : f.1 ≠ e.1 := by
      rw [List.map_cons, List.nodup_cons, List.map_cons, List.mem_cons, not_or] at hnodup
      exact hnodup.1.1
    obtain ⟨u, hu, hmore⟩ := mergeChannels_cons_eq_ok_iff.1 h
    obtain ⟨w, hw, hrest⟩ := mergeChannels_cons_eq_ok_iff.1 hmore
    obtain ⟨v, hv, hvw⟩ := mergeRequests_comm hne hu hw
    exact mergeChannels_cons_eq_ok_iff.2 ⟨v, hv, mergeChannels_cons_eq_ok_iff.2 ⟨w, hvw, hrest⟩⟩
  | trans hfirst _ ih ih' => exact ih' ((hfirst.map Prod.fst).nodup_iff.1 hnodup) (ih hnodup h)

/-- Two orders of one mapping have the same ascending order. -/
theorem ascending_eq_of_perm {p p' : Plan} (hwf : p.wellFormed = true) (h : p.channels.Perm p'.channels) :
    ascending p = ascending p' := by
  refine List.Perm.eq_of_pairwise (le := fun e f => e.1 ≤ f.1) (fun e f he hf hef hfe => ?_) (ascending_sorted p)
    (ascending_sorted p') ((ascending_perm p).trans (h.trans (ascending_perm p').symm))
  have hin : f ∈ p.channels := h.mem_iff.2 ((mem_ascending p' f).1 hf)
  exact List.inj_on_of_nodup_map ((Plan.wellFormed_iff p).1 hwf) ((mem_ascending p e).1 he) hin
    (Nat.le_antisymm hef hfe)

/-- The validation takes the channels in ascending order, so it does not see the order of the plan. -/
theorem validate_eq_of_perm {p p' : Plan} (hwf : p.wellFormed = true) (h : p.channels.Perm p'.channels)
    (hmode : p.mode = p'.mode) : validate p = validate p' := by
  rw [validate, validate, checkCount, checkCount, h.length_eq, hmode, ascending_eq_of_perm hwf h]

/-- Settles O29. -/
theorem mergeOrderDoesNotMatter : Obligations.MergeOrderDoesNotMatter := by
  refine ⟨fun _ _ _ _ hnodup hperm h => mergeChannels_perm hperm hnodup h, fun p p' s hwf hperm hmode => ?_⟩
  simp only [exec, execCompile, compileBody, validate_eq_of_perm hwf hperm hmode, hperm.length_eq]

/-! ## A frozen Timeline (R165) -/

/-- Settles O31: merges need a COMPILE that runs, and nothing else but COMPILE and RESET writes these fields. -/
theorem frozenTimelineIsReadOnly : Obligations.FrozenTimelineIsReadOnly := by
  intro i s t hfrozen hreset hcompile h
  cases exec_result h with
  | merged _ _ _ hc => exact absurd (hfrozen.symm.trans hc) nofun
  | mergeFault _ _ hc => exact absurd (hfrozen.symm.trans hc) nofun
  | compiled p _ _ _ hi => exact absurd hi (hcompile p)
  | compileFault p _ hi => exact absurd hi (hcompile p)
  | reset hi => exact absurd hi hreset
  | _ => exact ⟨rfl, rfl, hfrozen⟩

end Sys2Proof.Machine
end

section
/-! The engine (43_engine.md), one instruction at a time: what the Host's commands, the Producer and the Consumer do and
when they wait (R183 to R194), the two edges of the engine (R182), and the queue, the port and the trace (R191, R195,
R198). -/

namespace Sys2Proof.Machine

/-! ## START and STOP (R183, R184) -/

theorem exec_start_of_noFault {s : State} (hf : s.fault = .noFault) :
    exec .start s = .next { s with est := .active } := by
  simp [exec, execStart, faulted, hf]

theorem exec_start_of_fault {s : State} (hf : s.fault ≠ .noFault) : exec .start s = .next s := by
  simp [exec, execStart, faulted, hf]

/-- Settles O32. -/
theorem startActivatesTheEngine : Obligations.StartActivatesTheEngine :=
  fun _ => ⟨exec_start_of_noFault, exec_start_of_fault⟩

theorem exec_stop (s : State) : exec .stop s =
    .next { s with est := .idle, q := [], pb := none, rst := .notReplaying } := rfl

/-- Settles O33. -/
theorem stopIdlesAndDiscards : Obligations.StopIdlesAndDiscards :=
  exec_stop

/-! ## The replay commands (R185 to R188) -/

theorem replayAccepted_eq_false_iff (s : State) :
    replayAccepted s = false ↔ s.fault ≠ .noFault ∨ s.cst ≠ .frozen ∨ s.rst ≠ .notReplaying := by
  rw [← Bool.not_eq_true, replayAccepted_iff]
  simp only [not_and_or, ne_eq]

theorem armOnce_of_accepted {s : State} (h : replayAccepted s = true) : armOnce s = { s with
    enqn := 0, rst := if s.tl.length = 0 then .notReplaying else .replaying .once 0 } :=
  if_pos h

theorem armOnce_of_refused {s : State} (h : replayAccepted s = false) : armOnce s = s :=
  if_neg (Bool.eq_false_iff.1 h)

theorem armLoop_of_accepted {s : State} (h : replayAccepted s = true) :
    armLoop s = { s with enqn := 0, rst := .replaying .loop 0 } :=
  if_pos h

theorem armLoop_of_refused {s : State} (h : replayAccepted s = false) : armLoop s = s :=
  if_neg (Bool.eq_false_iff.1 h)

theorem armOnce_of_nonempty {s : State} (h : replayAccepted s = true) (htl : s.tl ≠ []) :
    armOnce s = { s with enqn := 0, rst := .replaying .once 0 } := by
  rw [armOnce_of_accepted h, if_neg (mt List.length_eq_zero_iff.1 htl)]

theorem exec_replayOnce (s : State) : exec .replayOnce s = .next (armOnce s) := rfl

theorem exec_replayLoop (s : State) : exec .replayLoop s = .next (armLoop s) := rfl

theorem exec_replay_of_single {s : State} (h : s.mode = .single) : exec .replay s = .next (armOnce s) := by
  simp only [exec, execReplay, h]

theorem exec_replay_of_loop {s : State} (h : s.mode = .loop) : exec .replay s = .next (armLoop s) := by
  simp only [exec, execReplay, h]

/-- Settles O34. -/
theorem replayOnceArmsTheProducer : Obligations.ReplayOnceArmsTheProducer := by
  intro s
  rw [exec_replayOnce]
  refine ⟨fun hf hc hr => ?_, fun h => ?_⟩
  · have hacc := (replayAccepted_iff s).2 ⟨hf, hc, hr⟩
    refine ⟨fun hempty => ?_, fun htl => ?_⟩
    · rw [armOnce_of_accepted hacc, if_pos (List.length_eq_zero_iff.2 hempty)]
    · rw [armOnce_of_nonempty hacc htl]
  · rw [armOnce_of_refused ((replayAccepted_eq_false_iff s).2 h)]

/-- Settles O35. -/
theorem replayLoopArmsTheProducer : Obligations.ReplayLoopArmsTheProducer := by
  intro s
  rw [exec_replayLoop]
  refine ⟨fun hf hc hr => ?_, fun h => ?_⟩
  · rw [armLoop_of_accepted ((replayAccepted_iff s).2 ⟨hf, hc, hr⟩)]
  · rw [armLoop_of_refused ((replayAccepted_eq_false_iff s).2 h)]

/-- Settles O36. -/
theorem replayFollowsTheMode : Obligations.ReplayFollowsTheMode := by
  refine fun s => ⟨exec_replay_of_single, exec_replay_of_loop, fun hf hc hr htl => ?_⟩
  have hacc := (replayAccepted_iff s).2 ⟨hf, hc, hr⟩
  cases hm : s.mode with
  | single => simp [exec_replay_of_single hm, armOnce_of_nonempty hacc htl, hm]
  | loop => simp [exec_replay_of_loop hm, armLoop_of_accepted hacc, hm]

/-! ## The Producer (R189, R190) -/

theorem exec_pEnqueue_of_enabled {s : State} {kind : ReplayKind} {i : Nat} {w : PulseWord}
    (hr : s.rst = .replaying kind i) (hw : s.tl[i]? = some w) (hq : s.q.length < s.cfg.queueDepth) :
    exec .pEnqueue s = .next { s with
      q := s.q ++ [w], enqn := s.enqn + 1, rst := advanceReplay kind i s.tl.length } := by
  simp [exec, execPEnqueue, hr, memRead, hw, queueRoom, hq, enqueue]

theorem exec_pEnqueue_of_not_enabled {s : State} (h : ¬ ProducerEnabled s) : exec .pEnqueue s = .next s := by
  rcases execPEnqueue_cases s with ⟨kind, i, w, hr, hw, hq, -⟩ | he
  · obtain ⟨hi, -⟩ := List.getElem?_eq_some_iff.1 hw
    exact absurd ⟨kind, i, hr, hi, hq⟩ h
  · exact he

theorem advanceReplay_of_lt (kind : ReplayKind) {i n : Nat} (h : i + 1 < n) :
    advanceReplay kind i n = .replaying kind (i + 1) :=
  if_pos h

theorem advanceReplay_once_of_le {i n : Nat} (h : n ≤ i + 1) : advanceReplay .once i n = .notReplaying :=
  if_neg (Nat.not_lt.2 h)

theorem advanceReplay_loop_of_le {i n : Nat} (h : n ≤ i + 1) : advanceReplay .loop i n = .replaying .loop 0 :=
  if_neg (Nat.not_lt.2 h)

/-- Settles O37. -/
theorem enqueueCopiesTheNextSlot : Obligations.EnqueueCopiesTheNextSlot := by
  intro s kind i w hr hw hq
  rw [exec_pEnqueue_of_enabled hr hw hq]
  refine ⟨fun hlt => ?_, fun hlast honce => ?_, fun hlast hloop => ?_⟩
  · rw [advanceReplay_of_lt kind hlt]
  · rw [honce, advanceReplay_once_of_le hlast.ge]
  · rw [hloop, advanceReplay_loop_of_le hlast.ge]

/-- Settles O38: each of the three conditions contradicts the enabling condition of R189. -/
theorem enqueueWaitsWhenNotEnabled : Obligations.EnqueueWaitsWhenNotEnabled := by
  refine fun s h => exec_pEnqueue_of_not_enabled ?_
  rintro ⟨kind, i, hr, hi, hq⟩
  rcases h with hnone | hfull | ⟨kind', j, hr', hj⟩
  · exact absurd (hnone.symm.trans hr) nofun
  · exact absurd hq (Nat.not_lt.2 hfull)
  · cases hr.symm.trans hr'
    exact absurd hi (Nat.not_lt.2 hj)

/-! ## The Consumer (R192 to R194) -/

theorem exec_cEmitA_of_enabled {s : State} {w : PulseWord} {rest : List PulseWord} (he : s.est = .active)
    (hp : s.pb = none) (hq : s.q = w :: rest) : exec .cEmitA s = .next { s with
      port := phaseA w, trace := s.trace ++ [phaseA w], q := rest, pb := some (phaseB w) } := by
  simp only [exec, execCEmitA, he, hp, hq, emit]

theorem exec_cEmitB_of_enabled {s : State} {h : HalfWord} (he : s.est = .active) (hp : s.pb = some h) :
    exec .cEmitB s = .next { s with port := h, trace := s.trace ++ [h], pb := none } := by
  simp only [exec, execCEmitB, he, hp, emit]

/-- Settles O39. -/
theorem emitATakesTheNextWord : Obligations.EmitATakesTheNextWord :=
  fun _ _ _ => exec_cEmitA_of_enabled

/-- Settles O40. -/
theorem emitBReleasesTheWordInFlight : Obligations.EmitBReleasesTheWordInFlight :=
  fun _ _ => exec_cEmitB_of_enabled

/-- Settles O41: a step that emits contradicts each of the conditions. -/
theorem consumerWaitsWhenNotEnabled : Obligations.ConsumerWaitsWhenNotEnabled := by
  refine fun s => ⟨fun h => ?_, fun h => ?_⟩
  · rcases execCEmitA_cases s with ⟨w, rest, he, hp, hq, -⟩ | hwait
    · simp [he, hp, hq] at h
    · exact hwait
  · rcases execCEmitB_cases s with ⟨b, he, hp, -⟩ | hwait
    · simp [he, hp] at h
    · exact hwait

/-- Settles O49: what is on the port is the half-word in flight, whose step lines the invariant holds low. -/
theorem phaseBLeavesStepLinesLow : Obligations.PhaseBLeavesStepLinesLow := by
  intro s t h hs he hp hexec
  rw [exec_cEmitB_of_enabled he hp] at hexec
  cases hexec
  exact hs.phaseBReleases h hp

/-! ## The edges of the engine (R182) -/

/-- An instruction keeps the engine's state, or is one of the edges: START into Active; STOP, RESET or fatal entry into
Idle. -/
theorem exec_est {i : Instr} {s t : State} (h : exec i s = .next t) :
    t.est = s.est ∨ (i = .start ∧ t.est = .active) ∨
      ((i = .stop ∨ i = .reset ∨ t.fault ≠ .noFault) ∧ t.est = .idle) := by
  cases exec_result h with
  | started hi => exact .inr (.inl ⟨hi, rfl⟩)
  | stopped hi => exact .inr (.inr ⟨.inl hi, rfl⟩)
  | reset hi => exact .inr (.inr ⟨.inr (.inl hi), rfl⟩)
  | mergeFault d _ _ hd => exact .inr (.inr ⟨.inr (.inr hd), rfl⟩)
  | compileFault _ d _ _ hd => exact .inr (.inr ⟨.inr (.inr hd), rfl⟩)
  | _ => exact .inl rfl

/-- A queue that loses its head loses it to C_EMIT_A of an Active engine, or is discarded. -/
theorem exec_loses_head {i : Instr} {s t : State} {w : PulseWord} (h : exec i s = .next t) (hq : s.q = w :: t.q) :
    (s.est = .active ∧ i = .cEmitA) ∨ i = .stop ∨ i = .reset ∨ t.fault ≠ .noFault := by
  cases exec_result h with
  | emittedA _ _ hi ha => exact .inl ⟨ha, hi⟩
  | stopped hi => exact .inr (.inl hi)
  | reset hi => exact .inr (.inr (.inl hi))
  | mergeFault d _ _ hd => exact .inr (.inr (.inr hd))
  | compileFault _ d _ _ hd => exact .inr (.inr (.inr hd))
  | enqueued =>
    have hlength := congrArg List.length hq
    simp only [List.length_cons, List.length_append] at hlength
    omega
  | _ => exact absurd hq (List.cons_ne_self w s.q).symm

/-- Settles O42. -/
theorem engineChangesStateByStartAndStopOnly : Obligations.EngineChangesStateByStartAndStopOnly := by
  refine fun i s t h => ⟨fun hidle hactive => ?_, fun hactive hidle => ?_, fun w => exec_loses_head h⟩
  · rcases exec_est h with hkept | ⟨hi, -⟩ | ⟨-, hidle'⟩
    · exact absurd (hactive.symm.trans (hkept.trans hidle)) nofun
    · exact hi
    · exact absurd (hactive.symm.trans hidle') nofun
  · rcases exec_est h with hkept | ⟨-, hactive'⟩ | ⟨hi, -⟩
    · exact absurd (hidle.symm.trans (hkept.trans hactive)) nofun
    · exact absurd (hidle.symm.trans hactive') nofun
    · exact hi

/-! ## No replay, no new word (R191) -/

/-- With no replay in progress the queue only loses words from its front. -/
theorem exec_queue_suffix {i : Instr} {s t : State} (hr : s.rst = .notReplaying) (h : exec i s = .next t) :
    t.q <:+ s.q := by
  cases exec_result h with
  | mergeFault => exact List.nil_suffix
  | compileFault => exact List.nil_suffix
  | reset => exact List.nil_suffix
  | stopped => exact List.nil_suffix
  | enqueued _ _ _ _ hr' => exact absurd (hr.symm.trans hr') nofun
  | emittedA w rest _ _ _ hq => rw [hq]; exact List.suffix_cons w rest
  | _ => exact List.suffix_rfl

/-- Only a replay command begins a replay, and without one no word is counted. -/
theorem exec_keeps_notReplaying {i : Instr} {s t : State} (hr : s.rst = .notReplaying) (h : exec i s = .next t)
    (hreplay : ¬ IsReplay i) (hreset : i ≠ .reset) : t.rst = .notReplaying ∧ t.enqn = s.enqn := by
  cases exec_result h with
  | mergeFault => exact ⟨rfl, rfl⟩
  | compileFault => exact ⟨rfl, rfl⟩
  | stopped => exact ⟨rfl, rfl⟩
  | reset hi => exact absurd hi hreset
  | armed _ hi => exact absurd hi hreplay
  | enqueued _ _ _ _ hr' => exact absurd (hr.symm.trans hr') nofun
  | _ => exact ⟨hr, rfl⟩

/-- Settles O46. -/
theorem noEnqueueWithoutAReplay : Obligations.NoEnqueueWithoutAReplay := by
  intro s
  constructor
  · intro t hstop
    rw [exec_stop] at hstop
    cases hstop
    rfl
  · intro i t hr h
    refine ⟨exec_queue_suffix hr h, fun hreplay honce hloop => exec_keeps_notReplaying hr h ?_⟩
    rintro (hi | hi | hi)
    · exact hreplay hi
    · exact honce hi
    · exact hloop hi

/-! ## The port and the trace (R198, R195) -/

/-- Settles O47. -/
theorem portBelongsToTheEngine : Obligations.PortBelongsToTheEngine := by
  intro i s t h hA hB hreset
  cases exec_result h with
  | reset hi => exact absurd hi hreset
  | emittedA _ _ hi => exact absurd hi hA
  | emittedB _ hi => exact absurd hi hB
  | _ => exact ⟨rfl, rfl⟩

@[simp] theorem emissions_nil : emissions [] = [] := rfl

@[simp] theorem emissions_cons (w : PulseWord) (words : List PulseWord) :
    emissions (w :: words) = phaseA w :: phaseB w :: emissions words := rfl

@[simp] theorem emissions_append (words words' : List PulseWord) :
    emissions (words ++ words') = emissions words ++ emissions words' :=
  List.flatMap_append

theorem trace_isPrefix_emittedAndOwed (s : State) : s.trace <+: emittedAndOwed s := by
  rw [emittedAndOwed, List.append_assoc]
  exact List.prefix_append _ _

/-- A block that holds nothing owes nothing. -/
theorem emittedAndOwed_of_empty {s : State} (hp : s.pb = none) (hq : s.q = []) : emittedAndOwed s = s.trace := by
  simp [emittedAndOwed, hp, hq]

theorem emittedAndOwed_enqueue (s : State) (w : PulseWord) :
    emittedAndOwed { s with q := s.q ++ [w] } = emittedAndOwed s ++ [phaseA w, phaseB w] := by
  simp [emittedAndOwed]

/-- C_EMIT_A moves phase A of the head from what is owed to what is emitted; phase B is still owed, in flight. -/
theorem emittedAndOwed_emitA {s : State} {w : PulseWord} {rest : List PulseWord} (hp : s.pb = none)
    (hq : s.q = w :: rest) :
    emittedAndOwed { s with trace := s.trace ++ [phaseA w], q := rest, pb := some (phaseB w) } = emittedAndOwed s := by
  simp [emittedAndOwed, hp, hq]

theorem emittedAndOwed_emitB {s : State} {h : HalfWord} (hp : s.pb = some h) :
    emittedAndOwed { s with trace := s.trace ++ [h], pb := none } = emittedAndOwed s := by
  simp [emittedAndOwed, hp]

/-- What an instruction does to what is emitted and owed: nothing; or STOP or a fault inside COMPILE discards what is
owed; or P_ENQUEUE adds the two halves of a slot. -/
theorem exec_emittedAndOwed {i : Instr} {s t : State} (h : exec i s = .next t) (hreset : i ≠ .reset) :
    emittedAndOwed t = emittedAndOwed s ∨
    ((i = .stop ∨ IsMerge i ∨ ∃ p, i = .compile p) ∧ emittedAndOwed t = s.trace) ∨
    (i = .pEnqueue ∧ ∃ kind k w, s.rst = .replaying kind k ∧ s.tl[k]? = some w ∧
      emittedAndOwed t = emittedAndOwed s ++ [phaseA w, phaseB w]) := by
  cases exec_result h with
  | mergeFault d hi => exact .inr (.inl ⟨.inr (.inl hi), emittedAndOwed_of_empty rfl rfl⟩)
  | compileFault p d hi => exact .inr (.inl ⟨.inr (.inr ⟨p, hi⟩), emittedAndOwed_of_empty rfl rfl⟩)
  | stopped hi => exact .inr (.inl ⟨.inl hi, emittedAndOwed_of_empty rfl rfl⟩)
  | reset hi => exact absurd hi hreset
  | enqueued kind k w hi hr hw => exact .inr (.inr ⟨hi, kind, k, w, hr, hw, emittedAndOwed_enqueue s w⟩)
  | emittedA _ _ _ _ hp hq => exact .inl (emittedAndOwed_emitA hp hq)
  | emittedB _ _ _ hp => exact .inl (emittedAndOwed_emitB hp)
  | _ => exact .inl rfl

/-- No instruction but RESET takes back an emission. -/
theorem exec_trace_isPrefix {i : Instr} {s t : State} (h : exec i s = .next t) (hreset : i ≠ .reset) :
    s.trace <+: t.trace := by
  cases exec_result h with
  | reset hi => exact absurd hi hreset
  | emittedA => exact List.prefix_append _ _
  | emittedB => exact List.prefix_append _ _
  | _ => exact List.prefix_rfl

/-- No instruction but P_ENQUEUE adds to what is owed. -/
theorem exec_emittedAndOwed_isPrefix {i : Instr} {s t : State} (h : exec i s = .next t) (hreset : i ≠ .reset)
    (henq : i ≠ .pEnqueue) : emittedAndOwed t <+: emittedAndOwed s := by
  rcases exec_emittedAndOwed h hreset with heq | ⟨-, heq⟩ | ⟨hi, -⟩
  · rw [heq]
  · rw [heq]; exact trace_isPrefix_emittedAndOwed s
  · exact absurd hi henq

/-- Settles O43. -/
theorem emissionsFollowTheQueue : Obligations.EmissionsFollowTheQueue := by
  intro i s t h hreset
  refine ⟨exec_trace_isPrefix h hreset, ?_, exec_emittedAndOwed_isPrefix h hreset, fun hi => ?_, fun hi => ?_⟩
  · by_cases henq : i = .pEnqueue
    · have htrace : t.trace = s.trace := (portBelongsToTheEngine i s t h (henq ▸ nofun) (henq ▸ nofun) hreset).2
      rw [htrace]
      exact trace_isPrefix_emittedAndOwed s
    · exact (trace_isPrefix_emittedAndOwed t).trans (exec_emittedAndOwed_isPrefix h hreset henq)
  · rcases exec_emittedAndOwed h hreset with heq | ⟨hdiscards, -⟩ | ⟨rfl, -⟩
    · exact heq
    · rcases hi with rfl | rfl | rfl | rfl | rfl | rfl <;> simp [IsMerge] at hdiscards
    · simp at hi
  · subst hi
    rcases execPEnqueue_cases s with ⟨kind, k, w, hr, hw, -, he⟩ | he <;> cases h.symm.trans he
    · exact .inr ⟨kind, k, w, hr, hw, emittedAndOwed_enqueue s w⟩
    · exact .inl rfl

end Sys2Proof.Machine
end

section
/-! A `once` replay as a whole (R196): what it has emitted, holds and still has to enqueue stays one sequence, whoever
moves. So a replay that ends has emitted the whole Timeline, and one script of the two agents ends it (R199). -/

namespace Sys2Proof.Machine

/-! ## The moves of the Producer and the Consumer -/

/-- `t` is `s` but for the fields of the model's own that a waiting step may write. -/
def SameEngine (s t : State) : Prop :=
  ∃ inbox turn ret, t = { s with inbox := inbox, turn := turn, ret := ret }

/-- The Producer took its step (R189). -/
inductive Enqueued (s : State) : State → Prop where
  | slot (kind : ReplayKind) (i : Nat) (w : PulseWord) (inbox : List Packet) (turn : Nat)
      (hr : s.rst = .replaying kind i) (hw : s.tl[i]? = some w) (hq : s.q.length < s.cfg.queueDepth) :
      Enqueued s { s with
        q := s.q ++ [w], enqn := s.enqn + 1, rst := advanceReplay kind i s.tl.length, inbox := inbox, turn := turn }

/-- The Consumer took one of its two steps (R192, R193). -/
inductive Emitted (s : State) : State → Prop where
  | phaseA (w : PulseWord) (rest : List PulseWord) (inbox : List Packet) (turn : Nat)
      (he : s.est = .active) (hp : s.pb = none) (hq : s.q = w :: rest) :
      Emitted s { s with
        port := phaseA w, trace := s.trace ++ [phaseA w], q := rest, pb := some (phaseB w), inbox := inbox
        turn := turn }
  | phaseB (h : HalfWord) (inbox : List Packet) (turn : Nat) (he : s.est = .active) (hp : s.pb = some h) :
      Emitted s { s with port := h, trace := s.trace ++ [h], pb := none, inbox := inbox, turn := turn }

/-- One of the two agents took its step. -/
def Moved (s t : State) : Prop :=
  Enqueued s t ∨ Emitted s t

theorem SameEngine.refl (s : State) : SameEngine s s :=
  ⟨s.inbox, s.turn, s.ret, rfl⟩

theorem SameEngine.trans {s t u : State} (hst : SameEngine s t) (htu : SameEngine t u) : SameEngine s u := by
  obtain ⟨_, _, _, rfl⟩ := hst
  obtain ⟨inbox, turn, ret, rfl⟩ := htu
  exact ⟨inbox, turn, ret, rfl⟩

theorem Enqueued.producerEnabled {s t : State} (h : Enqueued s t) : ProducerEnabled s := by
  obtain ⟨kind, i, w, -, -, hr, hw, hq⟩ := h
  obtain ⟨hi, -⟩ := List.getElem?_eq_some_iff.1 hw
  exact ⟨kind, i, hr, hi, hq⟩

/-- In state `s` the instruction does nothing to a replay and its engine but the agents' own moves: it is no STOP and no
RESET, and it is refused or without effect where it is a replay command, a merge, a COMPILE or a START. -/
structure Calm (i : Instr) (s : State) : Prop where
  stop : i ≠ .stop
  reset : i ≠ .reset
  replay : IsReplay i → s.rst ≠ .notReplaying
  merge : IsMerge i → s.cst ≠ .building
  compile : ∀ p, i = .compile p → ¬ AcceptsCompile s
  start : i = .start → s.est = .active

/-- A calm instruction waits, or is a move of one of the agents. -/
theorem exec_of_calm {i : Instr} {s t : State} {inbox : List Packet} {turn : Nat} (hcalm : Calm i s)
    (h : exec i { s with inbox := inbox, turn := turn } = .next t) :
    SameEngine s t ∨ (i = .pEnqueue ∧ Enqueued s t) ∨ Emitted s t := by
  cases exec_result h with
  | unchanged => exact .inl ⟨inbox, turn, s.ret, rfl⟩
  | returned ret => exact .inl ⟨inbox, turn, ret, rfl⟩
  | merged _ _ hi hc => exact absurd hc (hcalm.merge hi)
  | mergeFault _ hi hc => exact absurd hc (hcalm.merge hi)
  | compiled p _ _ _ hi ha => exact absurd ha (hcalm.compile p hi)
  | compileFault p _ hi ha => exact absurd ha (hcalm.compile p hi)
  | reset hi => exact absurd hi hcalm.reset
  | started hi =>
    left
    rw [← hcalm.start hi]
    exact ⟨inbox, turn, s.ret, rfl⟩
  | stopped hi => exact absurd hi hcalm.stop
  | armed _ hi _ _ hr => exact absurd hr (hcalm.replay hi)
  | enqueued kind j w hi hr hw hq => exact .inr (.inl ⟨hi, .slot kind j w inbox turn hr hw hq⟩)
  | emittedA w rest _ he hp hq => exact .inr (.inr (.phaseA w rest inbox turn he hp hq))
  | emittedB b _ he hp => exact .inr (.inr (.phaseB b inbox turn he hp))

theorem calm_pEnqueue (s : State) : Calm .pEnqueue s := by
  constructor <;> simp [IsReplay, IsMerge]

theorem calm_cEmitA (s : State) : Calm .cEmitA s := by
  constructor <;> simp [IsReplay, IsMerge]

theorem calm_cEmitB (s : State) : Calm .cEmitB s := by
  constructor <;> simp [IsReplay, IsMerge]

theorem exists_calm_of_isAgentStep {p : Packet} (hp : IsAgentStep p) :
    ∃ i, decode p = .ok i ∧ ∀ s, Calm i s := by
  rcases hp with rfl | rfl | rfl
  · exact ⟨.pEnqueue, rfl, calm_pEnqueue⟩
  · exact ⟨.cEmitA, rfl, calm_cEmitA⟩
  · exact ⟨.cEmitB, rfl, calm_cEmitB⟩

/-! ## What a once replay still has to do -/

/-- The replay in progress, if there is one, is a `once` replay at a slot of the Timeline. -/
def OnceReplay (s : State) : Prop :=
  ∀ kind i, s.rst = .replaying kind i → kind = .once ∧ i < s.tl.length

/-- The slots that a `once` replay has still to enqueue, in order. -/
def slotsLeft (s : State) : List PulseWord :=
  match s.rst with
  | .notReplaying => []
  | .replaying _ i => s.tl.drop i

theorem slotsLeft_of_notReplaying {s : State} (hr : s.rst = .notReplaying) : slotsLeft s = [] := by
  simp only [slotsLeft, hr]

theorem slotsLeft_of_replaying {s : State} {kind : ReplayKind} {i : Nat} (hr : s.rst = .replaying kind i) :
    slotsLeft s = s.tl.drop i := by
  simp only [slotsLeft, hr]

theorem notReplaying_of_slotsLeft_eq_nil {s : State} (hs : OnceReplay s) (h : slotsLeft s = []) :
    s.rst = .notReplaying := by
  cases hr : s.rst with
  | notReplaying => rfl
  | replaying kind i =>
    obtain ⟨-, hi⟩ := hs kind i hr
    rw [slotsLeft_of_replaying hr, List.drop_eq_nil_iff] at h
    exact absurd hi (Nat.not_lt.2 h)

/-- A `once` replay goes from slot `i` to the slots after it. -/
theorem slotsLeft_advance_once {t : State} {i : Nat} (hr : t.rst = advanceReplay .once i t.tl.length) :
    slotsLeft t = t.tl.drop (i + 1) := by
  by_cases hlt : i + 1 < t.tl.length
  · rw [advanceReplay_of_lt _ hlt] at hr
    exact slotsLeft_of_replaying hr
  · have hle := Nat.le_of_not_lt hlt
    rw [advanceReplay_once_of_le hle] at hr
    rw [slotsLeft_of_notReplaying hr, List.drop_eq_nil_of_le hle]

theorem onceReplay_advance {t : State} {i : Nat} (hr : t.rst = advanceReplay .once i t.tl.length) : OnceReplay t := by
  intro kind j hj
  rw [hr] at hj
  rcases advanceReplay_cases .once i t.tl.length with ⟨hlt, he⟩ | ⟨-, -, he⟩ | ⟨-, hloop, -⟩
  · cases he.symm.trans hj
    exact ⟨rfl, hlt⟩
  · exact absurd (he.symm.trans hj) nofun
  · cases hloop

/-! ## The account of a once replay (R195, R196) -/

/-- From `s` to `t`, what was emitted, what is owed and what is still to be enqueued stay one sequence; a slot that is
counted is one fewer to enqueue; the Timeline and the engine's state stand; and a new emission is on the port. -/
structure Accounted (s t : State) : Prop where
  total : emittedAndOwed t ++ emissions (slotsLeft t) = emittedAndOwed s ++ emissions (slotsLeft s)
  count : t.enqn + (slotsLeft t).length = s.enqn + (slotsLeft s).length
  timeline : t.tl = s.tl
  engine : t.est = s.est
  port : (t.trace = s.trace ∧ t.port = s.port) ∨ t.trace.getLast? = some t.port

theorem Accounted.refl (s : State) : Accounted s s :=
  ⟨rfl, rfl, rfl, rfl, .inl ⟨rfl, rfl⟩⟩

theorem Accounted.trans {s t u : State} (hst : Accounted s t) (htu : Accounted t u) : Accounted s u where
  total := htu.total.trans hst.total
  count := htu.count.trans hst.count
  timeline := htu.timeline.trans hst.timeline
  engine := htu.engine.trans hst.engine
  port := by
    rcases htu.port with ⟨htrace, hport⟩ | hlast
    · rw [htrace, hport]
      exact hst.port
    · exact .inr hlast

theorem SameEngine.accounted {s t : State} (h : SameEngine s t) : Accounted s t := by
  obtain ⟨_, _, _, rfl⟩ := h
  exact ⟨rfl, rfl, rfl, rfl, .inl ⟨rfl, rfl⟩⟩

theorem SameEngine.onceReplay {s t : State} (h : SameEngine s t) (hs : OnceReplay s) : OnceReplay t := by
  obtain ⟨_, _, _, rfl⟩ := h
  exact hs

/-- An enqueued slot is the first of those that were left. -/
theorem Enqueued.slotsLeft_eq_cons {s t : State} (h : Enqueued s t) (hs : OnceReplay s) :
    ∃ w, slotsLeft s = w :: slotsLeft t ∧ emittedAndOwed t = emittedAndOwed s ++ [phaseA w, phaseB w] ∧
      t.q = s.q ++ [w] := by
  obtain ⟨kind, i, w, _, _, hr, hw, -⟩ := h
  obtain ⟨rfl, -⟩ := hs kind i hr
  refine ⟨w, ?_, emittedAndOwed_enqueue s w, rfl⟩
  have hcons : s.tl.drop i = w :: s.tl.drop (i + 1) := by
    rw [List.drop_eq_getElem?_toList_append, hw]
    rfl
  rw [slotsLeft_of_replaying hr, hcons, slotsLeft_advance_once (i := i)]
  rfl

theorem Enqueued.onceReplay {s t : State} (h : Enqueued s t) (hs : OnceReplay s) : OnceReplay t := by
  obtain ⟨kind, i, w, _, _, hr, -, -⟩ := h
  obtain ⟨rfl, -⟩ := hs kind i hr
  exact onceReplay_advance rfl

theorem Enqueued.accounted {s t : State} (h : Enqueued s t) (hs : OnceReplay s) : Accounted s t := by
  obtain ⟨w, hleft, howed, -⟩ := h.slotsLeft_eq_cons hs
  have htotal : emittedAndOwed t ++ emissions (slotsLeft t) = emittedAndOwed s ++ emissions (slotsLeft s) := by
    simp [hleft, howed]
  have hlength : (slotsLeft s).length = (slotsLeft t).length + 1 := by rw [hleft, List.length_cons]
  obtain ⟨kind, i, _, _, _, -, -, -⟩ := h
  refine ⟨htotal, ?_, rfl, rfl, .inl ⟨rfl, rfl⟩⟩
  rw [hlength, Nat.add_assoc, Nat.add_comm 1]

theorem Emitted.onceReplay {s t : State} (h : Emitted s t) (hs : OnceReplay s) : OnceReplay t := by
  cases h <;> exact hs

theorem Emitted.accounted {s t : State} (h : Emitted s t) : Accounted s t := by
  cases h with
  | phaseA w rest inbox turn he hp hq =>
    exact ⟨congrArg (· ++ _) (emittedAndOwed_emitA hp hq), rfl, rfl, rfl, .inr List.getLast?_concat⟩
  | phaseB b inbox turn he hp =>
    exact ⟨congrArg (· ++ _) (emittedAndOwed_emitB hp), rfl, rfl, rfl, .inr List.getLast?_concat⟩

theorem Moved.onceReplay {s t : State} (h : Moved s t) (hs : OnceReplay s) : OnceReplay t :=
  h.elim (·.onceReplay hs) (·.onceReplay hs)

theorem Moved.accounted {s t : State} (h : Moved s t) (hs : OnceReplay s) : Accounted s t :=
  h.elim (·.accounted hs) (·.accounted)

/-- At the end of a run everything that was owed or left has been emitted. -/
theorem Accounted.trace_of_runEnded {s t : State} (h : Accounted s t) (hend : RunEnded t) :
    t.trace = emittedAndOwed s ++ emissions (slotsLeft s) := by
  obtain ⟨hr, hq, hp, -⟩ := hend
  rw [← h.total, slotsLeft_of_notReplaying hr, emittedAndOwed_of_empty hp hq, emissions_nil, List.append_nil]

theorem Accounted.enqn_of_runEnded {s t : State} (h : Accounted s t) (hend : RunEnded t) :
    t.enqn = s.enqn + (slotsLeft s).length := by
  obtain ⟨hr, -⟩ := hend
  rw [← h.count, slotsLeft_of_notReplaying hr, List.length_nil, Nat.add_zero]

/-! ## Scripts of the two agents (R196) -/

theorem accounted_of_exec {i : Instr} {s t : State} {inbox : List Packet} (hcalm : Calm i s) (hs : OnceReplay s)
    (h : exec i { s with inbox := inbox } = .next t) : Accounted s t ∧ OnceReplay t := by
  rcases exec_of_calm (turn := s.turn) hcalm h with hsame | ⟨-, henq⟩ | hemit
  · exact ⟨hsame.accounted, hsame.onceReplay hs⟩
  · exact ⟨henq.accounted hs, henq.onceReplay hs⟩
  · exact ⟨hemit.accounted, hemit.onceReplay hs⟩

/-- A run through any script of the two agents keeps the account. -/
theorem accounted_of_run {script : List Packet} {s t : State} (hs : OnceReplay s) (hin : s.inbox = script)
    (hagent : ∀ p ∈ script, IsAgentStep p) (hrun : Sys2Proof.core.run script.length s = .next t) : Accounted s t := by
  induction script generalizing s with
  | nil =>
    cases hrun
    exact .refl _
  | cons p rest ih =>
    obtain ⟨i, hdecode, hcalm⟩ := exists_calm_of_isAgentStep (hagent p List.mem_cons_self)
    obtain ⟨u, hu⟩ := exec_next i { s with inbox := rest }
    have hstep : step s = .next u := (stepUnder_of_decode hin hdecode).trans hu
    obtain ⟨hinbox, -⟩ := exec_script hu
    obtain ⟨hsu, hou⟩ := accounted_of_exec (hcalm s) hs hu
    rw [List.length_cons, core_run_succ hstep] at hrun
    exact hsu.trans (ih hou hinbox (fun q hq => hagent q (List.mem_cons_of_mem p hq)) hrun)

theorem onceReplay_of_armed {s : State} (hr : s.rst = .replaying .once 0) (htl : s.tl ≠ []) : OnceReplay s := by
  intro kind i hi
  cases hr.symm.trans hi
  exact ⟨rfl, List.length_pos_iff.2 htl⟩

theorem slotsLeft_of_armed {s : State} (hr : s.rst = .replaying .once 0) : slotsLeft s = s.tl := by
  rw [slotsLeft_of_replaying hr, List.drop_zero]

theorem emissions_ne_nil {words : List PulseWord} (h : words ≠ []) : emissions words ≠ [] := by
  cases words with
  | nil => exact absurd rfl h
  | cons w rest => exact List.cons_ne_nil _ _

/-- Settles O44, by the account of the run: at its end nothing is owed and nothing is left. -/
theorem onceReplayEmitsTheWholeTimeline : Obligations.OnceReplayEmitsTheWholeTimeline := by
  intro s t hr htl hq hp hn hagent hrun hend
  have hacc : Accounted s t := accounted_of_run (onceReplay_of_armed hr htl) rfl hagent hrun
  have htrace : t.trace = s.trace ++ emissions s.tl := by
    rw [hacc.trace_of_runEnded hend, slotsLeft_of_armed hr, emittedAndOwed_of_empty hp hq]
  have hcount : t.enqn = s.tl.length := by
    rw [hacc.enqn_of_runEnded hend, slotsLeft_of_armed hr, hn, Nat.zero_add]
  have hport : some t.port = (emissions s.tl).getLast? := by
    have hne := emissions_ne_nil htl
    rcases hacc.port with ⟨hsame, -⟩ | hlast
    · rw [htrace, List.append_right_eq_self] at hsame
      exact absurd hsame hne
    · rw [← hlast, htrace, List.getLast?_append_of_ne_nil _ hne]
  exact ⟨htrace, hcount, hport, hacc.timeline, hacc.engine⟩

/-! ## One script that reaches the end (R199, D26) -/

/-- Enqueue, emit A, emit B: one slot taken through an empty queue. -/
def agentRound : List Packet :=
  [.command .pEnqueue, .command .cEmitA, .command .cEmitB]

theorem isAgentStep_of_mem_rounds {n : Nat} : ∀ p ∈ (List.replicate n agentRound).flatten, IsAgentStep p := by
  intro p hp
  obtain ⟨round, hround, hp⟩ := List.mem_flatten.1 hp
  rw [List.eq_of_mem_replicate hround] at hp
  simpa [agentRound, IsAgentStep] using hp

theorem length_rounds (n : Nat) : (List.replicate n agentRound).flatten.length = 3 * n := by
  simp [agentRound, Nat.mul_comm]

/-- A packet of the script that decodes is one step of a run. -/
theorem core_run_packet {s t : State} {p : Packet} {rest : List Packet} {i : Instr} {k : Nat} (hin : s.inbox = p :: rest)
    (hdecode : decode p = .ok i) (hexec : exec i { s with inbox := rest } = .next t) :
    Sys2Proof.core.run (k + 1) s = Sys2Proof.core.run k t :=
  core_run_succ ((stepUnder_of_decode hin hdecode).trans hexec)

/-- One round of an Active engine with nothing held takes the slot at the replay's position to the trace. -/
theorem core_run_round {s : State} {kind : ReplayKind} {i : Nat} {w : PulseWord} {rest : List Packet}
    (hr : s.rst = .replaying kind i) (hw : s.tl[i]? = some w) (hq : s.q = []) (hp : s.pb = none)
    (he : s.est = .active) (hdepth : 1 ≤ s.cfg.queueDepth) (hin : s.inbox = agentRound ++ rest) (k : Nat) :
    Sys2Proof.core.run (k + 3) s = Sys2Proof.core.run k { s with
      q := [], pb := none, enqn := s.enqn + 1, rst := advanceReplay kind i s.tl.length, port := phaseB w
      trace := s.trace ++ [phaseA w] ++ [phaseB w], inbox := rest } := by
  have hroom : s.q.length < s.cfg.queueDepth := by rw [hq]; exact hdepth
  have hword : s.q ++ [w] = [w] := by rw [hq, List.nil_append]
  refine Eq.trans (core_run_packet hin rfl (exec_pEnqueue_of_enabled hr hw hroom)) ?_
  refine Eq.trans (core_run_packet rfl rfl (exec_cEmitA_of_enabled he hp hword)) ?_
  exact core_run_packet rfl rfl (exec_cEmitB_of_enabled he rfl)

/-- With `n + 1` slots left, as many rounds reach the end of the run. -/
theorem exists_runEnded_of_rounds {n i : Nat} {s : State} (hr : s.rst = .replaying .once i)
    (hn : i + (n + 1) = s.tl.length) (hq : s.q = []) (hp : s.pb = none) (he : s.est = .active)
    (hf : s.fault = .noFault) (hdepth : 1 ≤ s.cfg.queueDepth)
    (hin : s.inbox = (List.replicate (n + 1) agentRound).flatten) :
    ∃ t, Sys2Proof.core.run (3 * (n + 1)) s = .next t ∧ RunEnded t ∧ t.inbox = [] := by
  have hslot : s.tl[i]? = some (slot s.tl i) := getElem?_eq_slot (by omega)
  induction n generalizing i s with
  | zero =>
    refine ⟨_, core_run_round hr hslot hq hp he hdepth hin 0, ⟨?_, rfl, rfl, hf⟩, rfl⟩
    exact advanceReplay_once_of_le hn.ge
  | succ n ih =>
    rw [List.replicate_succ, List.flatten_cons] at hin
    rw [Nat.mul_succ, core_run_round hr hslot hq hp he hdepth hin]
    have hnext : i + 1 < s.tl.length := by omega
    have hleft : i + 1 + (n + 1) = s.tl.length := by omega
    exact ih (advanceReplay_of_lt .once hnext) hleft rfl rfl he hf hdepth rfl (getElem?_eq_slot hnext)

/-- Settles O45: the rounds reach the end, and the account says what they leave. -/
theorem onceReplayReachesItsEnd : Obligations.OnceReplayReachesItsEnd := by
  intro s hr htl hq hp he hf hdepth hin
  obtain ⟨n, hn⟩ := Nat.exists_eq_succ_of_ne_zero (mt List.length_eq_zero_iff.1 htl)
  obtain ⟨t, hrun, hend, hinbox⟩ :=
    exists_runEnded_of_rounds (n := n) hr (by omega) hq hp he hf hdepth (hin.trans (by rw [hn]; rfl))
  rw [← Nat.succ_eq_add_one, ← hn] at hrun
  have hacc : Accounted s t := by
    refine accounted_of_run (onceReplay_of_armed hr htl) hin isAgentStep_of_mem_rounds ?_
    exact (congrArg (Sys2Proof.core.run · s) (length_rounds _)).trans hrun
  refine ⟨t, hrun, hend, hinbox, ?_, ?_, hacc.engine.trans he⟩
  · rw [hacc.trace_of_runEnded hend, slotsLeft_of_armed hr, emittedAndOwed_of_empty hp hq]
  · rw [hacc.enqn_of_runEnded hend, slotsLeft_of_armed hr]

end Sys2Proof.Machine
end

section
/-! Fair runs (R200): every move of the two agents uses up some work, and fairness brings the next move as long as one is
enabled, so a `once` replay ends and the Producer gets its turn. -/

namespace Sys2Proof.Machine

/-! ## A block that plays -/

/-- A frozen block without a fault, with an Active engine and a queue of at least 1. -/
structure Playing (s : State) : Prop where
  fault : s.fault = .noFault
  frozen : s.cst = .frozen
  active : s.est = .active
  depth : 1 ≤ s.cfg.queueDepth

theorem SameEngine.playing {s t : State} (h : SameEngine s t) (hs : Playing s) : Playing t := by
  obtain ⟨_, _, _, rfl⟩ := h
  exact { hs with }

theorem Moved.playing {s t : State} (h : Moved s t) (hs : Playing s) : Playing t := by
  rcases h with henq | hemit
  · cases henq
    exact { hs with }
  · cases hemit <;> exact { hs with }

/-- In a block that plays every instruction that leaves the replay alone is calm. -/
theorem Playing.calm {s : State} {p : Packet} {rest : List Packet} {i : Instr} (hs : Playing s) (hu : Undisturbed s)
    (hin : s.inbox = p :: rest) (hdecode : decode p = .ok i) : Calm i s := by
  obtain ⟨hstop, hreset, hreplay⟩ := hu p rest i hin hdecode
  refine ⟨hstop, hreset, fun hi hr => ?_, fun _ hc => ?_, fun plan hi hacc => ?_, fun _ => hs.active⟩
  · obtain ⟨h, honce, hloop, -⟩ := hreplay hr
    exact hi.elim h (·.elim honce hloop)
  · exact absurd (hs.frozen.symm.trans hc) nofun
  · obtain ⟨-, hr⟩ := hacc
    obtain ⟨-, -, -, hcompile⟩ := hreplay hr
    exact hcompile plan hi

/-! ## One step of a block that plays -/

/-- P_ENQUEUE has one packet. -/
theorem eq_of_decode_pEnqueue {p : Packet} (h : decode p = .ok .pEnqueue) : p = .command .pEnqueue := by
  cases p with
  | motion channel index text =>
    simp only [decode, decodeMotion, motionInstr] at h
    repeat' split at h
    all_goals cases h
  | command c =>
    cases c with
    | pEnqueue => rfl
    | compile plan =>
      rw [decode_compile] at h
      split at h <;> cases h
    | pulseFor channel d a =>
      simp only [decode, decodeCommand, decodeChannel] at h
      split at h <;> cases h
    | mergeChannel channel requests =>
      simp only [decode, decodeCommand, decodeChannel] at h
      split at h <;> cases h
    | _ => cases h

/-- The instruction that the Consumer's step is: phase B of the word in flight, else phase A of the next word. -/
def consumerInstr (s : State) : Instr :=
  if s.pb = none then .cEmitA else .cEmitB

theorem consumerStep_eq (s : State) : consumerStep s = exec (consumerInstr s) s := by
  unfold consumerInstr
  split
  · next hp => exact consumerStep_of_none hp
  · next hp => exact consumerStep_of_inFlight hp

theorem calm_consumerInstr (s u : State) : Calm (consumerInstr s) u := by
  unfold consumerInstr
  split
  · exact calm_cEmitA u
  · exact calm_cEmitB u

theorem consumerInstr_ne_pEnqueue (s : State) : consumerInstr s ≠ .pEnqueue := by
  unfold consumerInstr
  split <;> exact nofun

theorem decode_consumerInstr (s : State) :
    decode (.command (if s.pb = none then .cEmitA else .cEmitB)) = .ok (consumerInstr s) := by
  unfold consumerInstr
  split <;> rfl

/-- The Producer's turn, by the script or by the schedule, runs P_ENQUEUE. -/
theorem stepUnder_of_producerMoves {schedule : Nat → Agent} {s : State} (h : ProducerMoves schedule s) :
    ∃ inbox turn, stepUnder schedule s = exec .pEnqueue { s with inbox := inbox, turn := turn } := by
  rcases h with ⟨hin, hagent⟩ | ⟨rest, hin⟩
  · refine ⟨s.inbox, s.turn + 1, ?_⟩
    rw [stepUnder_of_empty hin, hagent]
    rfl
  · exact ⟨rest, s.turn, stepUnder_of_decode hin rfl⟩

/-- The Consumer's turn runs the one of its instructions that the word in flight selects. -/
theorem stepUnder_of_consumerMoves {schedule : Nat → Agent} {s : State} (h : ConsumerMoves schedule s) :
    ∃ inbox turn, stepUnder schedule s = exec (consumerInstr s) { s with inbox := inbox, turn := turn } := by
  rcases h with ⟨hin, hagent⟩ | ⟨rest, hin⟩
  · refine ⟨s.inbox, s.turn + 1, ?_⟩
    rw [stepUnder_of_empty hin, hagent]
    exact consumerStep_eq _
  · exact ⟨rest, s.turn, stepUnder_of_decode hin (decode_consumerInstr s)⟩

/-- A step waits, or the Producer takes its step, or the Consumer takes one. -/
theorem stepUnder_of_playing {schedule : Nat → Agent} {s t : State} (hs : Playing s) (hu : Undisturbed s)
    (h : stepUnder schedule s = .next t) :
    SameEngine s t ∨ (ProducerMoves schedule s ∧ Enqueued s t) ∨ Emitted s t := by
  rcases stepUnder_cases schedule s with ⟨hin, he⟩ | ⟨p, rest, i, hin, hdecode, he⟩ | ⟨p, rest, e, -, -, he⟩ <;>
    rw [he] at h
  · cases hagent : schedule s.turn with
    | host issues =>
      rw [hagent, idleStep] at h
      cases h
      exact .inl ⟨_, _, s.ret, rfl⟩
    | producer =>
      rw [hagent] at h
      rcases exec_of_calm (calm_pEnqueue s) h with hsame | ⟨-, henq⟩ | hemit
      · exact .inl hsame
      · exact .inr (.inl ⟨.inl ⟨hin, hagent⟩, henq⟩)
      · exact .inr (.inr hemit)
    | consumer =>
      rw [hagent, idleStep, consumerStep_eq] at h
      rcases exec_of_calm (calm_consumerInstr s s) h with hsame | ⟨hi, -⟩ | hemit
      · exact .inl hsame
      · exact absurd hi (consumerInstr_ne_pEnqueue s)
      · exact .inr (.inr hemit)
  · rcases exec_of_calm (turn := s.turn) (hs.calm hu hin hdecode) h with hsame | ⟨rfl, henq⟩ | hemit
    · exact .inl hsame
    · exact .inr (.inl ⟨.inr ⟨rest, hin.trans (congrArg (· :: rest) (eq_of_decode_pEnqueue hdecode))⟩, henq⟩)
    · exact .inr (.inr hemit)
  · rcases rejectPacket_cases e { s with inbox := rest } with ⟨d, -, hc, -⟩ | ⟨-, he⟩ | ⟨-, he⟩
    · exact absurd (hs.frozen.symm.trans hc) nofun
    · cases he.symm.trans h
      exact .inl ⟨rest, s.turn, s.ret, rfl⟩
    · cases he.symm.trans h

/-- An enabled Producer whose turn it is takes its step. -/
theorem enqueued_of_producerMoves {schedule : Nat → Agent} {s t : State} (henabled : ProducerEnabled s)
    (hmoves : ProducerMoves schedule s) (h : stepUnder schedule s = .next t) : Enqueued s t := by
  obtain ⟨kind, i, hr, hi, hq⟩ := henabled
  obtain ⟨inbox, turn, hexec⟩ := stepUnder_of_producerMoves hmoves
  have hw : s.tl[i]? = some (slot s.tl i) := getElem?_eq_slot hi
  cases (hexec.trans (exec_pEnqueue_of_enabled hr hw hq)).symm.trans h
  exact .slot kind i _ inbox turn hr hw hq

/-- An enabled Consumer whose turn it is takes its step. -/
theorem emitted_of_consumerMoves {schedule : Nat → Agent} {s t : State} (henabled : ConsumerEnabled s)
    (hmoves : ConsumerMoves schedule s) (h : stepUnder schedule s = .next t) : Emitted s t := by
  obtain ⟨he, hholds⟩ := henabled
  obtain ⟨inbox, turn, hexec⟩ := stepUnder_of_consumerMoves hmoves
  cases hp : s.pb with
  | none =>
    obtain ⟨w, rest, hq⟩ := List.exists_cons_of_ne_nil (hholds.resolve_left (absurd hp))
    rw [consumerInstr, if_pos hp] at hexec
    cases (hexec.trans (exec_cEmitA_of_enabled he hp hq)).symm.trans h
    exact .phaseA w rest inbox turn he hp hq
  | some b =>
    rw [consumerInstr, if_neg (by rw [hp]; exact nofun)] at hexec
    cases (hexec.trans (exec_cEmitB_of_enabled he hp)).symm.trans h
    exact .phaseB b inbox turn he hp

/-! ## The work left -/

/-- The agents' steps that are left of a `once` replay: three for each slot to enqueue, two for each word in the queue, one
for the word in flight. -/
def workLeft (s : State) : Nat :=
  3 * (slotsLeft s).length + 2 * s.q.length + s.pb.toList.length

theorem SameEngine.workLeft_eq {s t : State} (h : SameEngine s t) : workLeft t = workLeft s := by
  obtain ⟨_, _, _, rfl⟩ := h
  rfl

theorem Enqueued.workLeft_lt {s t : State} (h : Enqueued s t) (hs : OnceReplay s) : workLeft t < workLeft s := by
  obtain ⟨w, hleft, -, hq⟩ := h.slotsLeft_eq_cons hs
  have hp : t.pb = s.pb := by cases h; rfl
  simp only [workLeft, hleft, hq, hp, List.length_cons, List.length_append, List.length_nil]
  omega

/-- An emission leaves the replay where it is, and so the slots left, of a replay of either kind. -/
theorem Emitted.workLeft_lt {s t : State} (h : Emitted s t) : workLeft t < workLeft s := by
  have hleft : slotsLeft t = slotsLeft s := by cases h <;> rfl
  simp only [workLeft, hleft]
  cases h with
  | phaseA w rest _ _ _ hp hq =>
    simp only [hp, hq, List.length_cons, Option.toList_some, Option.toList_none, List.length_nil]
    omega
  | phaseB b _ _ _ hp => simp [hp]

theorem Moved.workLeft_lt {s t : State} (h : Moved s t) (hs : OnceReplay s) : workLeft t < workLeft s :=
  h.elim (·.workLeft_lt hs) (·.workLeft_lt)

theorem SameEngine.producerEnabled {s t : State} (h : SameEngine s t) (hs : ProducerEnabled s) : ProducerEnabled t := by
  obtain ⟨_, _, _, rfl⟩ := h
  exact hs

theorem SameEngine.consumerEnabled {s t : State} (h : SameEngine s t) (hs : ConsumerEnabled s) : ConsumerEnabled t := by
  obtain ⟨_, _, _, rfl⟩ := h
  exact hs

theorem SameEngine.rst_tl {s t : State} (h : SameEngine s t) : t.rst = s.rst ∧ t.tl = s.tl := by
  obtain ⟨_, _, _, rfl⟩ := h
  exact ⟨rfl, rfl⟩

theorem Emitted.rst_tl {s t : State} (h : Emitted s t) : t.rst = s.rst ∧ t.tl = s.tl := by
  cases h <;> exact ⟨rfl, rfl⟩

/-- With a slot to enqueue, the queue has room or something to emit. -/
theorem Playing.enabled_of_replaying {s : State} {kind : ReplayKind} {i : Nat} (hs : Playing s)
    (hr : s.rst = .replaying kind i) (hi : i < s.tl.length) : ProducerEnabled s ∨ ConsumerEnabled s := by
  by_cases hroom : s.q.length < s.cfg.queueDepth
  · exact .inl ⟨kind, i, hr, hi, hroom⟩
  · refine .inr ⟨hs.active, .inr (List.ne_nil_of_length_pos ?_)⟩
    exact Nat.lt_of_lt_of_le hs.depth (Nat.le_of_not_lt hroom)

/-- Before its end a `once` replay has an agent with a step to take. -/
theorem Playing.enabled_of_not_runEnded {s : State} (hs : Playing s) (honce : OnceReplay s) (hend : ¬ RunEnded s) :
    ProducerEnabled s ∨ ConsumerEnabled s := by
  cases hr : s.rst with
  | replaying kind i =>
    obtain ⟨-, hi⟩ := honce kind i hr
    exact hs.enabled_of_replaying hr hi
  | notReplaying =>
    refine .inr ⟨hs.active, ?_⟩
    by_contra hholds
    obtain ⟨hp, hq⟩ := not_or.1 hholds
    exact hend ⟨hr, not_ne_iff.1 hq, not_ne_iff.1 hp, hs.fault⟩

/-! ## Fair runs of a block that plays -/

/-- A weakly fair run whose every state plays, and in which nothing ends or replaces the replay. -/
structure FairPlay (schedule : Nat → Agent) (run : Nat → State) : Prop where
  isRun : IsRunUnder schedule run
  fair : Fair schedule run
  undisturbed : ∀ n, Undisturbed (run n)
  playing : ∀ n, Playing (run n)

/-- A run that begins in a block that plays goes on so. -/
theorem fairPlay_of_playing {schedule : Nat → Agent} {run : Nat → State} (hrun : IsRunUnder schedule run)
    (hfair : Fair schedule run) (hu : ∀ n, Undisturbed (run n)) (h0 : Playing (run 0)) : FairPlay schedule run := by
  refine ⟨hrun, hfair, hu, fun n => ?_⟩
  induction n with
  | zero => exact h0
  | succ n ih =>
    rcases stepUnder_of_playing ih (hu n) (hrun n) with hsame | ⟨-, henq⟩ | hemit
    · exact hsame.playing ih
    · exact Moved.playing (.inl henq) ih
    · exact Moved.playing (.inr hemit) ih

section
variable {schedule : Nat → Agent} {run : Nat → State}

/-- Where an agent is enabled, one of them takes its step in the end, and until then nothing changes: else it would stay
enabled, and fairness gives it its turn. -/
theorem FairPlay.exists_move (h : FairPlay schedule run) {n : Nat}
    (henabled : ProducerEnabled (run n) ∨ ConsumerEnabled (run n)) :
    ∃ m, SameEngine (run n) (run m) ∧
      ((ProducerMoves schedule (run m) ∧ Enqueued (run m) (run (m + 1))) ∨ Emitted (run m) (run (m + 1))) := by
  by_contra hno
  have hwaits : ∀ m, n ≤ m → SameEngine (run n) (run m) := by
    intro m hm
    induction m, hm using Nat.le_induction with
    | base => exact .refl _
    | succ m _ ih =>
      rcases stepUnder_of_playing (h.playing m) (h.undisturbed m) (h.isRun m) with hsame | hmove
      · exact ih.trans hsame
      · exact absurd ⟨m, ih, hmove⟩ hno
  rcases henabled with hproducer | hconsumer
  · obtain ⟨m, hm, hmoves⟩ := h.fair.producer n fun m hm => (hwaits m hm).producerEnabled hproducer
    have henq := enqueued_of_producerMoves ((hwaits m hm).producerEnabled hproducer) hmoves (h.isRun m)
    exact hno ⟨m, hwaits m hm, .inl ⟨hmoves, henq⟩⟩
  · obtain ⟨m, hm, hmoves⟩ := h.fair.consumer n fun m hm => (hwaits m hm).consumerEnabled hconsumer
    have hemit := emitted_of_consumerMoves ((hwaits m hm).consumerEnabled hconsumer) hmoves (h.isRun m)
    exact hno ⟨m, hwaits m hm, .inr hemit⟩

/-- A `once` replay ends, with the account kept. -/
theorem FairPlay.exists_runEnded (h : FairPlay schedule run) {n : Nat} (honce : OnceReplay (run n)) :
    ∃ m, RunEnded (run m) ∧ Accounted (run n) (run m) := by
  induction hwork : workLeft (run n) using Nat.strong_induction_on generalizing n with
  | _ work ih =>
  by_cases hend : RunEnded (run n)
  · exact ⟨n, hend, .refl _⟩
  obtain ⟨m, hsame, hmove⟩ := h.exists_move ((h.playing n).enabled_of_not_runEnded honce hend)
  have hmoved : Moved (run m) (run (m + 1)) := hmove.imp_left And.right
  have honce' : OnceReplay (run m) := hsame.onceReplay honce
  have hless : workLeft (run (m + 1)) < work := by
    rw [← hwork, ← hsame.workLeft_eq]
    exact hmoved.workLeft_lt honce'
  obtain ⟨k, hended, hacc⟩ := ih _ hless (hmoved.onceReplay honce') rfl
  exact ⟨k, hended, (hsame.accounted.trans (hmoved.accounted honce')).trans hacc⟩

/-- A Producer with a slot to enqueue gets its turn: until then only the Consumer moves, and its work is finite. -/
theorem FairPlay.exists_producer_turn (h : FairPlay schedule run) {n i : Nat} {kind : ReplayKind}
    (hr : (run n).rst = .replaying kind i) (hi : i < (run n).tl.length) :
    ∃ m, ProducerEnabled (run m) ∧ ProducerMoves schedule (run m) := by
  induction hwork : workLeft (run n) using Nat.strong_induction_on generalizing n with
  | _ work ih =>
  obtain ⟨m, hsame, ⟨hmoves, henq⟩ | hemit⟩ := h.exists_move ((h.playing n).enabled_of_replaying hr hi)
  · exact ⟨m, henq.producerEnabled, hmoves⟩
  · have hless : workLeft (run (m + 1)) < work := by
      rw [← hwork, ← hsame.workLeft_eq]
      exact hemit.workLeft_lt
    obtain ⟨hrst, htl⟩ := hsame.rst_tl
    obtain ⟨hrst', htl'⟩ := hemit.rst_tl
    exact ih _ hless (hrst'.trans (hrst.trans hr)) (by rw [htl', htl]; exact hi) rfl

end

/-- Settles O60. -/
theorem fairReplaysGoOn : Obligations.FairReplaysGoOn := by
  intro schedule run hrun hfair hf hc he hdepth hu
  have hplay : FairPlay schedule run := fairPlay_of_playing hrun hfair hu ⟨hf, hc, he, hdepth⟩
  refine ⟨fun i hr hi => ?_, fun kind i hr hi => hplay.exists_producer_turn hr hi⟩
  have honce : OnceReplay (run 0) := by
    intro kind j hj
    cases hr.symm.trans hj
    exact ⟨rfl, hi⟩
  obtain ⟨n, hend, hacc⟩ := hplay.exists_runEnded honce
  refine ⟨n, hend, ?_⟩
  rw [hacc.trace_of_runEnded hend, slotsLeft_of_replaying hr]

end Sys2Proof.Machine
end

section
/-! Errors (60_exceptions.md): the checks of COMPILE in the order of R228, rejected packets inside a COMPILE, and the
faulted block (R220 to R230). -/

namespace Sys2Proof.Machine

/-! ## The order of a mapping (R97, R150) -/

/-- The ids of a mapping are taken in strictly ascending order, each at most once. -/
theorem ascending_strictly_sorted {p : Plan} (hwf : p.wellFormed = true) :
    (ascending p).Pairwise fun e f => e.1 < f.1 := by
  have hnodup : ((ascending p).map Prod.fst).Nodup :=
    ((ascending_perm p).map Prod.fst).nodup_iff.2 ((Plan.wellFormed_iff p).1 hwf)
  exact (ascending_sorted p).and (List.pairwise_map.1 hnodup) |>.imp fun h => lt_of_le_of_ne h.1 h.2

/-! ## What fails the validation (R221 to R223, R228) -/

theorem validate_of_overflow {p : Plan} (h : 8 < p.channels.length) : validate p = .error overflowDiagnostic := by
  rw [validate, checkCount, if_pos (show nchMax < p.channels.length from h)]
  rfl

theorem checkCount_of_le {p : Plan} (h : p.channels.length ≤ 8) : checkCount p = .ok () :=
  if_neg (Nat.not_lt.2 h)

theorem validate_of_other_mode {p : Plan} {given : Text} (hcount : p.channels.length ≤ 8)
    (hmode : p.mode = .other given) : validate p = .error (modeDiagnostic given) := by
  rw [validate, checkCount_of_le hcount, hmode]
  rfl

theorem validate_of_checkIds_error {p : Plan} {m : ReplayMode} {d : Diagnostic} (hcount : p.channels.length ≤ 8)
    (hmode : p.mode = .known m) (hids : checkIds (ascending p) = .error d) : validate p = .error d := by
  rw [validate, checkCount_of_le hcount, hmode, hids]
  rfl

theorem validate_of_parseLists_error {p : Plan} {m : ReplayMode} {lists : List (Channel × List Text)} {d : Diagnostic}
    (hcount : p.channels.length ≤ 8) (hmode : p.mode = .known m) (hids : checkIds (ascending p) = .ok lists)
    (hparse : parseLists lists = .error d) : validate p = .error d := by
  rw [validate, checkCount_of_le hcount, hmode, hids]
  exact congrArg (Except.bind · fun requests => .ok (m, requests)) hparse

/-- In a list in ascending id, the first id above 7 is the smallest one, even where ids repeat. -/
theorem checkIds_of_smallest {lists : List (Nat × List Text)} (hsorted : lists.Pairwise fun a b => a.1 ≤ b.1)
    {id : Nat} {texts : List Text} (hid : 7 < id) (hmem : (id, texts) ∈ lists)
    (hsmallest : ∀ e ∈ lists, 7 < e.1 → id ≤ e.1) : checkIds lists = .error (channelDiagnostic id) := by
  induction lists with
  | nil => cases hmem
  | cons e rest ih =>
    obtain ⟨hle, hrest⟩ := List.pairwise_cons.1 hsorted
    obtain ⟨k, ks⟩ := e
    by_cases hk : k < 8
    · have hin : (id, texts) ∈ rest := (List.mem_cons.1 hmem).resolve_left (by rintro ⟨⟩; omega)
      rw [checkIds, dif_pos hk, ih hrest hin fun e he => hsmallest e (List.mem_cons_of_mem _ he)]
      rfl
    · have hkid : k = id := by
        apply Nat.le_antisymm _ (hsmallest (k, ks) List.mem_cons_self (by omega))
        rcases List.mem_cons.1 hmem with h | h
        · cases h; exact Nat.le_refl _
        · exact hle _ h
      rw [checkIds, dif_neg hk, hkid]

/-- The first bad text of a mapping, in ascending id and then list order, fails the validation of a plan that is
otherwise in order. -/
theorem validate_of_first_bad_text {p : Plan} {m : ReplayMode} {id : Nat} {good rest : List Text} {text : Text}
    (hwf : p.wellFormed = true) (hcount : p.channels.length ≤ 8) (hmode : p.mode = .known m)
    (hids : ∀ e ∈ p.channels, e.1 ≤ 7) (hmem : (id, good ++ text :: rest) ∈ p.channels)
    (hsmaller : ∀ e ∈ p.channels, e.1 < id → ∀ t ∈ e.2, ∃ r, parse t = some r)
    (hgood : ∀ t ∈ good, ∃ r, parse t = some r) (hbad : parse text = none) :
    validate p = .error (grammarDiagnostic id good.length text) := by
  obtain ⟨lists, hcheck, hmap⟩ := checkIds_ok (lists := ascending p) fun e he => hids e ((mem_ascending p e).1 he)
  have hlist : (id, good ++ text :: rest) ∈ lists.map fun e => (e.1.val, e.2) := hmap ▸ (mem_ascending p _).2 hmem
  obtain ⟨⟨c, texts⟩, hin, heq⟩ := List.mem_map.1 hlist
  cases heq
  obtain ⟨before, after, rfl⟩ := List.append_of_mem hin
  have hsorted := ascending_strictly_sorted hwf
  rw [← hmap, List.pairwise_map] at hsorted
  obtain ⟨-, -, hsplit⟩ := List.pairwise_append.1 hsorted
  have hbefore (e : Channel × List Text) (he : e ∈ before) : ∀ t ∈ e.2, ∃ r, parse t = some r := by
    have hplan : (e.1.val, e.2) ∈ ascending p := hmap ▸ List.mem_map_of_mem (List.mem_append_left _ he)
    exact hsmaller _ ((mem_ascending p _).1 hplan) (hsplit e he _ List.mem_cons_self)
  exact validate_of_parseLists_error hcount hmode hcheck (parseLists_error hbefore hgood hbad)

/-- An accepted COMPILE of a plan that fails the validation is fatal entry from the state it began in (R229). -/
theorem exec_compile_of_validate_error {p : Plan} {s : State} {d : Diagnostic} (hacc : AcceptsCompile s)
    (hvalid : validate p = .error d) :
    exec (.compile p) s = .next (fatalState d.code (faultNumber d.code) d.info s) := by
  rw [exec_compile_of_accepted hacc, compileBody, hvalid]
  exact congrArg Host.Outcome.next (raise_eq_fatalState d s)

/-- Settles O24: the count is checked before anything else. -/
theorem compileRejectsNineChannels : Obligations.CompileRejectsNineChannels :=
  fun _ _ hacc hcount => exec_compile_of_validate_error hacc (validate_of_overflow hcount)

/-- Settles O25: the mode is checked next, and then the ids, the smallest first. -/
theorem compileRejectsBadModeOrChannel : Obligations.CompileRejectsBadModeOrChannel := by
  intro s p hacc hcount
  constructor
  · intro given hmode
    exact exec_compile_of_validate_error hacc (validate_of_other_mode hcount hmode)
  · rintro m id hmode hid ⟨texts, hmem⟩ hsmallest
    have hcheck : checkIds (ascending p) = .error (channelDiagnostic id) :=
      checkIds_of_smallest (ascending_sorted p) hid ((mem_ascending p _).2 hmem) fun e he =>
        hsmallest e ((mem_ascending p e).1 he)
    exact exec_compile_of_validate_error hacc (validate_of_checkIds_error hcount hmode hcheck)

/-- Settles O26: the texts are read last, in ascending id and then list order. -/
theorem compileReportsTheFirstBadText : Obligations.CompileReportsTheFirstBadText := by
  intro s p m id good rest text hacc hwf hcount hmode hids hmem hsmaller hgood hbad
  exact exec_compile_of_validate_error hacc
    (validate_of_first_bad_text hwf hcount hmode hids hmem hsmaller hgood hbad)

/-! ## Rejected packets (R104, R181, R229) -/

/-- A packet rejected with a diagnostic is fatal entry inside a COMPILE, and elsewhere it is only taken off the script. -/
theorem step_of_rejected {s : State} {p : Packet} {rest : List Packet} {e : DecodeError} {d : Diagnostic}
    (hscript : s.inbox = p :: rest) (hdecode : decode p = .error e)
    (hreject : ∀ t, rejectPacket e t = .next (buildStep (fun _ => .error d) t)) :
    (s.cst = .building →
      step s = .next (fatalState d.code (faultNumber d.code) d.info { s with inbox := rest })) ∧
    (s.cst ≠ .building → step s = .next { s with inbox := rest }) := by
  have hstep : step s = .next (buildStep (fun _ => .error d) { s with inbox := rest }) :=
    (stepUnder_of_decode_error hscript hdecode).trans (hreject _)
  constructor
  · intro hc
    rw [hstep, buildStep_of_error (by exact hc) rfl, raise_eq_fatalState]
  · intro hc
    rw [hstep, buildStep_of_not_building _ (by exact hc)]

/-- Settles O10: the decoder rejects the text, with its place, as the parser does. -/
theorem stepRaisesGrammarErrorInsideCompile : Obligations.StepRaisesGrammarErrorInsideCompile := by
  intro s c index text rest hscript hnone
  have hdecode := decode_motion_of_parse_eq_none c index ((parse_eq_none_iff text).2 hnone)
  exact step_of_rejected (d := grammarDiagnostic c.val index text) hscript hdecode fun _ => rfl

theorem decodeChannel_of_seven_lt {id : Nat} (h : 7 < id) : decodeChannel id = .error (.channelAboveSeven id) :=
  dif_neg (Nat.not_lt.2 h)

/-- Settles O58: the decoder rejects all three packets for their channel. -/
theorem stepOnAChannelAboveSeven : Obligations.StepOnAChannelAboveSeven := by
  intro s p rest id hscript hid hp
  have hdecode : decode p = .error (.channelAboveSeven id) := by
    rcases hp with ⟨index, text, rfl⟩ | ⟨d, a, rfl⟩ | ⟨requests, rfl⟩
    · simp only [decode, decodeMotion, decodeChannel_of_seven_lt hid]
    · simp only [decode, decodeCommand, decodeChannel_of_seven_lt hid, Except.map]
    · simp only [decode, decodeCommand, decodeChannel_of_seven_lt hid, Except.map]
  exact step_of_rejected (d := channelDiagnostic id) hscript hdecode fun _ => rfl

/-! ## Where faults arise (R220) -/

/-- Settles O50: the two results of an instruction that raise are those of a merge inside a COMPILE and of COMPILE; the
others keep the register or clear it. -/
theorem faultsAriseOnlyInCompile : Obligations.FaultsAriseOnlyInCompile := by
  intro i s t h hs ht
  cases exec_result h with
  | mergeFault d hi hc =>
    refine .inr ⟨hc, ?_⟩
    rcases hi with ⟨site, n, b, k, hmove⟩ | ⟨site, n, b, k, hhold⟩ | hmerge
    · exact .inl ⟨site, n, b, k, .inl hmove⟩
    · exact .inl ⟨site, n, b, k, .inr hhold⟩
    · exact .inr hmerge
  | compileFault p d hi => exact .inl ⟨p, hi⟩
  | reset => exact absurd rfl ht
  | _ => exact absurd hs ht

/-! ## The faulted block (R230, D18) -/

/-- STOP finds nothing to stop where the engine is idle, empty and not replaying. -/
theorem stopped_eq_self {s : State} (hest : s.est = .idle) (hq : s.q = []) (hpb : s.pb = none)
    (hrst : s.rst = .notReplaying) : { s with est := .idle, q := [], pb := none, rst := .notReplaying } = s := by
  rw [← hest, ← hq, ← hpb, ← hrst]

/-- Settles O51: by the invariant a faulted block builds, replays and emits nothing, so each result of an instruction that
would change it is shut out by its own condition. -/
theorem faultedBlockIsHalted : Obligations.FaultedBlockIsHalted := by
  intro i s t hs hf hreset h
  obtain ⟨hest, hq, hpb, hrst, hcst, -, -⟩ := hs.faultHalts hf
  cases exec_result h with
  | unchanged => rfl
  | returned => rfl
  | merged _ _ _ hc => exact absurd (hcst.symm.trans hc) nofun
  | mergeFault _ _ hc => exact absurd (hcst.symm.trans hc) nofun
  | compiled _ _ _ _ _ ha => exact absurd ha.1 hf
  | compileFault _ _ _ ha => exact absurd ha.1 hf
  | reset hi => exact absurd hi hreset
  | started _ hf' => exact absurd hf' hf
  | stopped => exact stopped_eq_self hest hq hpb hrst
  | armed _ _ hf' => exact absurd hf' hf
  | enqueued _ _ _ _ hr => exact absurd (hrst.symm.trans hr) nofun
  | emittedA _ _ _ ha => exact absurd (hest.symm.trans ha) nofun
  | emittedB _ _ ha => exact absurd (hest.symm.trans ha) nofun

end Sys2Proof.Machine
end

section
/-! Reset and hazards (70_reset_and_hazards.md): RESET from every state (R260), the replay into an Idle engine (R265), and
the durations that follow from the one constant delay (R276). -/

namespace Sys2Proof.Machine

/-! ## RESET (R260, R261) -/

theorem exec_reset (s : State) : exec .reset s =
    .next { State.reset with cfg := s.cfg, inbox := s.inbox, turn := s.turn } := rfl

theorem reset_cur : State.reset.cur = #v[0, 0, 0, 0, 0, 0, 0, 0] := rfl

/-- Settles O52: RESET answers the reset state with the kept fields, and the reset state has each value of R260; only its
cursors are written in another way. -/
theorem resetRestoresTheResetState : Obligations.ResetRestoresTheResetState := by
  intro s
  rw [← reset_cur]
  exact exec_reset s

/-! ## A replay into an Idle engine (R265) -/

/-- Settles O48: the full queue holds the Producer (R190), the Idle engine both steps of the Consumer (R194). -/
theorem replayIntoAnIdleEngineHangs : Obligations.ReplayIntoAnIdleEngineHangs := by
  intro s hidle hfull
  obtain ⟨hemitA, hemitB⟩ := consumerWaitsWhenNotEnabled s
  have henqueue := enqueueWaitsWhenNotEnabled s (.inr (.inl hfull.ge))
  exact ⟨henqueue, hemitA (.inl hidle), hemitB (.inl hidle)⟩

/-! ## Durations (R276) -/

theorem slotTicks_eq (c : Config) : slotTicks c = 2 * c.interPhaseDelayTicks := rfl

theorem pulseHighTicks_eq (c : Config) : pulseHighTicks c = c.interPhaseDelayTicks := rfl

/-- A step line is high for one delay and low for the rest of its period. -/
theorem stepTicks_eq_high_add_low (c : Config) (k : Nat) :
    stepTicks c k = pulseHighTicks c + pulseLowTicks c k := by
  simp only [stepTicks, pulseHighTicks, pulseLowTicks]
  ring

/-- One step takes a stride of slots. -/
theorem stepTicks_eq_mul_slotTicks (c : Config) (k : Nat) : stepTicks c k = (1 + k) * slotTicks c := by
  simp only [stepTicks, slotTicks]
  ring

/-- A request takes its steps, each as long as the step period of its speed factor. -/
theorem requestTicks_eq_mul_stepTicks (c : Config) (r : MotionRequest) :
    requestTicks c r = r.steps * stepTicks c r.speedFactor := by
  simp only [requestTicks, stepTicks]
  ring

theorem requestTicks_eq_mul_slotTicks (c : Config) (r : MotionRequest) :
    requestTicks c r = expandedSteps r * slotTicks c := by
  calc requestTicks c r
      = r.steps * stepTicks c r.speedFactor := requestTicks_eq_mul_stepTicks c r
    _ = r.steps * (stride r * slotTicks c) := by rw [stepTicks_eq_mul_slotTicks, stride]
    _ = expandedSteps r * slotTicks c := (Nat.mul_assoc ..).symm

/-- Settles O55. -/
theorem durationsFollowFromOneDelay : Obligations.DurationsFollowFromOneDelay :=
  fun c r => ⟨slotTicks_eq c, pulseHighTicks_eq c, stepTicks_eq_high_add_low c r.speedFactor,
    stepTicks_eq_mul_slotTicks c r.speedFactor, requestTicks_eq_mul_slotTicks c r⟩

end Sys2Proof.Machine
end
